-- ==== Sys2Proof/Word.lean ====
section
/-! DEFINITION. The word types of the CORE (spec/00_scope.md R4, R6): the 8-bit byte, the 9-bit program
counter and the index of a general register. Nothing here computes. -/

namespace Sys2Proof

/-- A byte: a memory cell, a general register, an opcode or operand byte (`XLEN` = 8, R4, R6). -/
abbrev Byte := BitVec 8

/-- A value of the program counter, `PC_WIDTH` = 9 bits (R4, R27). -/
abbrev Pc := BitVec 9

/-- A valid register index, 0 to 7 (`NREG` = 8, R21). Operand bytes are `Byte`s; they become a `Reg`
only through `Machine.regIdx`. -/
abbrev Reg := Fin 8

end Sys2Proof
end

