-- ==== Sys2Proof/Syntax.lean ====
section
/-! DEFINITION. The instructions as syntax: one constructor per row of spec/opcode_table.json (R85). An operand
is the whole byte that stands in memory (R83, R84): a register operand of 8 to 255 is ill-formed syntax, and
executing it raises the fault of R115. -/

namespace Sys2Proof

/-- The 13 instructions of R85, in the table's order. -/
inductive Instr where
  /-- HALT, format F0 (R118). -/
  | halt
  /-- RET, format F0 (R162). -/
  | ret
  /-- PUSH reg, format F1R (R151). -/
  | push (reg : Byte)
  /-- POP reg, format F1R (R152). -/
  | pop (reg : Byte)
  /-- PRN reg, format F1R (R141). -/
  | prn (reg : Byte)
  /-- CALL reg, format F1R (R161). -/
  | call (reg : Byte)
  /-- JMP reg, format F1R (R163). -/
  | jmp (reg : Byte)
  /-- JEQ reg, format F1R (R164). -/
  | jeq (reg : Byte)
  /-- JNE reg, format F1R (R165). -/
  | jne (reg : Byte)
  /-- LDI reg, imm, format F2RI (R140). -/
  | ldi (reg imm : Byte)
  /-- ADD regA, regB, format F2RR (R131). -/
  | add (regA regB : Byte)
  /-- MUL regA, regB, format F2RR (R132). -/
  | mul (regA regB : Byte)
  /-- CMP regA, regB, format F2RR (R180). -/
  | cmp (regA regB : Byte)
  deriving DecidableEq, Repr

end Sys2Proof
end

