-- ==== Sys2Proof/WellFormed.lean ====
section
/-! DEFINITION. When an instruction is well-formed: every register operand is an index 0 to 7; every immediate is
legal (spec/30_encoding.md R83, R84, R88). -/

namespace Sys2Proof

/-- A register operand byte is valid when its value, all 8 bits of it, is 0 to 7 (R26, R83). -/
def regByteOk (b : Byte) : Bool := decide (b.toNat ≤ 7)

/-- Well-formed: no illegal operand value in the sense of R88. -/
def Instr.wellFormed : Instr → Bool
  | .halt => true
  | .ret => true
  | .push r => regByteOk r
  | .pop r => regByteOk r
  | .prn r => regByteOk r
  | .call r => regByteOk r
  | .jmp r => regByteOk r
  | .jeq r => regByteOk r
  | .jne r => regByteOk r
  | .ldi r _ => regByteOk r
  | .add a b => regByteOk a && regByteOk b
  | .mul a b => regByteOk a && regByteOk b
  | .cmp a b => regByteOk a && regByteOk b

end Sys2Proof
end

