-- ==== Sys2Proof/Decode.lean ====
section
/-! DEFINITION. The decoder and the encoder (spec/30_encoding.md R80 to R93). Decoding is a 13-way equality match on
the whole opcode byte with a default (R82, R86, R93); it never looks at parts of the opcode byte. -/

namespace Sys2Proof

/-- What the opcode byte alone settles (R89, R93): the instruction itself (format F0), or how it is made from one
operand byte (F1R) or two (F2RI and F2RR), in the order the bytes lie in memory (R81). -/
inductive Shape where
  | f0 (i : Instr)
  | f1 (mk : Byte → Instr)
  | f2 (mk : Byte → Byte → Instr)

/-- The opcode map of R85; `none` is an unknown opcode (R87). -/
def lookup (b0 : Byte) : Option Shape :=
  match b0 with
  | 0x01#8 => some (.f0 .halt)
  | 0x11#8 => some (.f0 .ret)
  | 0x45#8 => some (.f1 .push)
  | 0x46#8 => some (.f1 .pop)
  | 0x47#8 => some (.f1 .prn)
  | 0x50#8 => some (.f1 .call)
  | 0x54#8 => some (.f1 .jmp)
  | 0x55#8 => some (.f1 .jeq)
  | 0x56#8 => some (.f1 .jne)
  | 0x82#8 => some (.f2 .ldi)
  | 0xA0#8 => some (.f2 .add)
  | 0xA2#8 => some (.f2 .mul)
  | 0xA7#8 => some (.f2 .cmp)
  | _ => none

/-- Why a list of bytes is no instruction. -/
inductive DecodeError where
  /-- There is no opcode byte. -/
  | noOpcode
  /-- The first byte is none of the 13 opcodes (R87). -/
  | unknownOpcode (b0 : Byte)
  /-- The first operand byte is missing (R114). -/
  | noFirstOperand (b0 : Byte)
  /-- The second operand byte is missing (R114). -/
  | noSecondOperand (b0 : Byte)
  deriving DecidableEq, Repr

/-- The instruction at the head of a list of bytes, lowest address first (R54, R81), with the bytes after it. -/
def decode (bytes : List Byte) : Except DecodeError (Instr × List Byte) :=
  match bytes with
  | [] => .error .noOpcode
  | b0 :: rest =>
    match lookup b0 with
    | none => .error (.unknownOpcode b0)
    | some (.f0 i) => .ok (i, rest)
    | some (.f1 mk) =>
      match rest with
      | [] => .error (.noFirstOperand b0)
      | b1 :: rest1 => .ok (mk b1, rest1)
    | some (.f2 mk) =>
      match rest with
      | [] => .error (.noFirstOperand b0)
      | [_] => .error (.noSecondOperand b0)
      | b1 :: b2 :: rest2 => .ok (mk b1 b2, rest2)

/-- The opcode byte of an instruction (R85). -/
def Instr.opcode : Instr → Byte
  | .halt => 0x01
  | .ret => 0x11
  | .push _ => 0x45
  | .pop _ => 0x46
  | .prn _ => 0x47
  | .call _ => 0x50
  | .jmp _ => 0x54
  | .jeq _ => 0x55
  | .jne _ => 0x56
  | .ldi _ _ => 0x82
  | .add _ _ => 0xA0
  | .mul _ _ => 0xA2
  | .cmp _ _ => 0xA7

/-- The operand bytes of an instruction in the order of R81. -/
def Instr.operands : Instr → List Byte
  | .halt => []
  | .ret => []
  | .push r => [r]
  | .pop r => [r]
  | .prn r => [r]
  | .call r => [r]
  | .jmp r => [r]
  | .jeq r => [r]
  | .jne r => [r]
  | .ldi r imm => [r, imm]
  | .add a b => [a, b]
  | .mul a b => [a, b]
  | .cmp a b => [a, b]

/-- The bytes of an instruction, lowest address first (R54, R81). -/
def encode (i : Instr) : List Byte := i.opcode :: i.operands

/-- The three bytes of an instruction word numbered as spec/opcode_table.json numbers it: bit 0 is the least
significant bit of the byte at the lowest address. Bits from `nbits` up are 0. -/
def tableBytes (nbits w : Nat) : List Byte :=
  let v := w % 2 ^ nbits
  [BitVec.ofNat 8 v, BitVec.ofNat 8 (v / 256), BitVec.ofNat 8 (v / 65536)]

/-- The instruction the decoder reads from a table word; `none` where it refuses. -/
def decodeTableWord (nbits w : Nat) : Option Instr :=
  match decode (tableBytes nbits w) with
  | .ok (i, _) => some i
  | .error _ => none

end Sys2Proof
end

