-- ==== Sys2Proof/Config.lean ====
section
/-! DEFINITION. What an instance of the CORE fixes: the parameters of spec/00_scope.md R4, the fixed ones as
numbers and the open ones as a structure that reset takes as its argument. -/

namespace Sys2Proof.Config

/-- `MEM_SIZE`: the number of memory cells (R4). -/
def memSize : Nat := 256

/-- `SP_INDEX`: the register that is the stack pointer (R4, R22). -/
abbrev spIndex : Reg := 7

/-- `SP_RESET`: the stack pointer after reset (R4, R39). -/
def spReset : Byte := 0xF4

/-- `PC_RESET`: the program counter after reset (R4, R39). -/
def pcReset : Pc := 0

/-- `LOAD_BASE`: where the loader puts program byte 0 (R4, R243). -/
def loadBase : Nat := 0

/-- The OPEN parameters of R4. A statement about every instance of the hardware quantifies over them. -/
structure Params where
  /-- `STRICT_DECODE`: an unknown opcode faults (`true`) or is skipped (`false`); decision D2. -/
  strictDecode : Bool
  /-- `REG_INIT[0..6]`: registers 0 to 6 after reset; decision D4. -/
  regInit : Vector Byte 7
  /-- `MEM_INIT[0..255]`: memory before the loader writes; decision D5. -/
  memInit : Vector Byte 256
  deriving DecidableEq, Repr

/-- The simulation defaults of R4: strict decoding, registers and memory all `0x00`. `State.reset` is the
reset with these. DESIGN CHOICE, unsafe: log entries 1 (registers), 2 (memory), 3 (strict decoding). -/
def simulation : Params where
  strictDecode := true
  regInit := Vector.replicate 7 0
  memInit := Vector.replicate 256 0

end Sys2Proof.Config
end

