-- ==== Sys2Proof/Machine/State.lean ====
section
/-! DEFINITION. The architectural state of the CORE as plain data (spec/10_state.md R20: "the following and nothing
else"), its reset value (R39), and the reasons a host operation can stop. -/

namespace Sys2Proof.Machine

/-- The run state (R33). -/
inductive RunState where
  | running
  | halted
  | faulted
  deriving DecidableEq, Repr

/-- The kind of a fault (R34, R201). -/
inductive FaultKind where
  | none
  | outOfBounds
  | unknownOpcode
  | unsupportedOperation
  deriving DecidableEq, Repr

/-- `fault.space` (R34): a memory address or a register index was out of range. `mem` is also the 0 that the
other kinds hold. -/
inductive FaultSpace where
  | mem
  | reg
  deriving DecidableEq, Repr

/-- The fault record (R34). -/
structure FaultRecord where
  kind : FaultKind
  pc : Pc
  opcodeValid : Bool
  opcode : Byte
  space : FaultSpace
  index : BitVec 9
  deriving DecidableEq, Repr

/-- The fault record at reset: kind `none`, every other field 0 (R39). -/
def FaultRecord.clear : FaultRecord where
  kind := .none
  pc := 0
  opcodeValid := false
  opcode := 0
  space := .mem
  index := 0

/-- The three comparison flags `fl.L`, `fl.G`, `fl.E` (R30). -/
structure Flags where
  less : Bool
  greater : Bool
  equal : Bool
  deriving DecidableEq, Repr

/-- Memory as (address, byte) pairs in one canonical form, `Memory.wf`. -/
abbrev Memory := List Host.Cell

/-- What an unlisted address reads as. DESIGN CHOICE, unsafe (log entry 2): the simulation default of
`MEM_INIT` (R4, R39); the hardware may hold any byte there. -/
def unlistedByte : Byte := 0

/-- The canonical form: addresses strictly rising, every address one of the 256 that exist (R50), and no entry
equal to what an unlisted address reads as. -/
abbrev Memory.wf (m : Memory) : Prop :=
  m.Pairwise (fun c d => c.1 < d.1) ∧ ∀ c ∈ m, c.1 < Config.memSize ∧ c.2 ≠ unlistedByte

/-- The state of the CORE (R20). The stack-pointer field `sp` is register 7 (R24: one 8-bit cell with two names);
it is read and written through `State.sp` and `State.setSp` (log entry 4). -/
structure State where
  /-- `x[0]` to `x[7]` (R21). -/
  regs : Vector Byte 8
  /-- The program counter (R27). -/
  pc : Pc
  /-- The flags (R30). -/
  flags : Flags
  /-- `mem[0]` to `mem[255]` (R36). -/
  mem : Memory
  /-- The run state (R33). -/
  run : RunState
  /-- The fault record (R34). -/
  fault : FaultRecord
  /-- The bytes PRN has emitted since reset, oldest first (R37). -/
  out : List Byte
  /-- The strap `STRICT_DECODE` (R4, R35): set by the host before the first step and changed by no step.
  DESIGN CHOICE (log entry 3): the spec calls it a parameter of the step; held here, every statement about every
  state covers both of its values. -/
  strictDecode : Bool
  deriving DecidableEq, Repr

/-- What the loader reports to the host. No step and no instruction answers one: every run-time fault of the spec has
a described entry (R203) and is a next state. -/
inductive Fault where
  /-- Raised by `Session.load` alone, for a program of more than 256 bytes; nothing is written (R200, R243). Safe. -/
  | programTooLarge
  deriving DecidableEq, Repr

/-- What has no meaning in the model. -/
inductive Refusal where
  /-- Raised by an arm of `exec` whose instruction has no meaning yet; no arm does. Safe. -/
  | notModelled (mnemonic : String)
  /-- Raised by `Session.load` alone, for a second load or a load after a step, which R244 gives no meaning. Safe. -/
  | lateLoad
  deriving DecidableEq, Repr

/-- The machine right after reset (R39, R240), before the loader runs, at the simulation defaults of the open
parameters. Registers 0 to 6: DESIGN CHOICE, unsafe (log entry 1). Memory: log entry 2. `strictDecode`: log entry 3. -/
def State.reset : State where
  regs := #v[0, 0, 0, 0, 0, 0, 0, Config.spReset]
  pc := Config.pcReset
  flags := ⟨false, false, false⟩
  mem := []
  run := .running
  fault := FaultRecord.clear
  out := []
  strictDecode := true

end Sys2Proof.Machine
end

