-- ==== Sys2Proof/Machine/Ops.lean ====
section
/-! DEFINITION. The named operations over registers, memory, the program counter and the output stream, and fault
entry (spec/00_scope.md R7, R8; spec/20_memory.md; spec/60_exceptions.md R203). -/

namespace Sys2Proof.Machine

/-- The result of one step or one instruction. -/
abbrev Result := Host.Outcome State Fault Refusal

/-- `v mod 256` (R8, R25). -/
def narrow (n : Nat) : Byte := BitVec.ofNat 8 n

/-- `zext_9(v)` (R8). -/
def zext9 (b : Byte) : BitVec 9 := b.setWidth 9

/-! ### Memory -/

/-- `mem[a]`. -/
def Memory.read : Memory → Nat → Byte
  | [], _ => unlistedByte
  | (b, v) :: m, a => if a = b then v else Memory.read m a

/-- Puts a cell before the first one with a greater address. -/
def Memory.insertCell : Memory → Nat → Byte → Memory
  | [], a, v => [(a, v)]
  | (b, w) :: m, a, v => if a < b then (a, v) :: (b, w) :: m else (b, w) :: Memory.insertCell m a v

/-- `mem[a] <- v`, keeping the canonical form: the old cell goes, and the new one is listed unless it holds what an
unlisted address reads as. -/
def Memory.write (m : Memory) (a : Nat) (v : Byte) : Memory :=
  let rest : Memory := m.filter (fun c => c.1 ≠ a)
  if v = unlistedByte then rest else rest.insertCell a v

/-- Writes bytes to consecutive ascending addresses (R243). -/
def Memory.writeList : Memory → Nat → List Byte → Memory
  | m, _, [] => m
  | m, a, v :: vs => Memory.writeList (m.write a v) (a + 1) vs

/-- The byte at an 8-bit address: the in-range path of R51, used for every access through `sp` (R52). -/
def State.readByte (s : State) (a : Byte) : Byte := s.mem.read a.toNat

/-- The write at an 8-bit address; nothing but the addressed cell changes (R56). -/
def State.writeByte (s : State) (a v : Byte) : State := { s with mem := s.mem.write a.toNat v }

/-- `MemRead(addr, 1)` (R8, R51): `none` where it raises `OutOfBounds(MEM, addr)`. -/
def State.memRead (s : State) (addr : BitVec 9) : Option Byte :=
  if addr.toNat > 255 then none else some (s.mem.read addr.toNat)

/-- `MemWrite(addr, 1, v)` (R8, R51): `none` where it raises `OutOfBounds(MEM, addr)`. -/
def State.memWrite (s : State) (addr : BitVec 9) (v : Byte) : Option State :=
  if addr.toNat > 255 then none else some (s.writeByte (addr.setWidth 8) v)

/-- The bytes from an address to the end of memory, lowest address first. -/
def State.bytesFrom (s : State) (a : Nat) : List Byte :=
  (List.range' a (Config.memSize - a)).map s.mem.read

/-! ### Registers -/

/-- `x[r]` (R7). -/
def State.x (s : State) (r : Reg) : Byte := s.regs[r]

/-- `x[r] <- v` (R7, R25). For `r = 7` this is the write of `sp` (R24). -/
def State.setX (s : State) (r : Reg) (v : Byte) : State := { s with regs := s.regs.set r v }

/-- `sp`, the other name of `x[7]` (R24). -/
def State.sp (s : State) : Byte := s.x Config.spIndex

/-- `sp <- v`, the same write as `x[7] <- v` (R24). -/
def State.setSp (s : State) (v : Byte) : State := s.setX Config.spIndex v

/-- `sp <- (sp - 1) mod 256` (R150). -/
def State.decSp (s : State) : State := s.setSp (s.sp - 1)

/-- `sp <- (sp + 1) mod 256` (R150). -/
def State.incSp (s : State) : State := s.setSp (s.sp + 1)

/-! ### Program counter, output, run state -/

/-- `pc <- target` (R7). -/
def State.setPc (s : State) (target : Pc) : State := { s with pc := target }

/-- `pc <- pc0 + n`, the advance of an instruction of length `n` (R28). -/
def State.advance (s : State) (n : Nat) : State := s.setPc (s.pc + BitVec.ofNat 9 n)

/-- `Emit(v)` (R8, R37). -/
def State.emit (s : State) (v : Byte) : State := { s with out := s.out ++ [v] }

/-- `run <- HALTED` (R118). -/
def State.halt (s : State) : State := { s with run := .halted }

/-! ### Taking a fault -/

/-- `raise <Kind>(space, index)`, the one fault entry (R203): the record is written and `run` becomes FAULTED;
nothing else changes. `opcode` is `none` for cause (a), a fault of the opcode fetch itself. There is no return from it
(R208). -/
def State.raise (s : State) (kind : FaultKind) (space : FaultSpace) (index : BitVec 9) (opcode : Option Byte) : State :=
  { s with
    run := .faulted
    fault :=
      { kind := kind
        pc := s.pc
        opcodeValid := opcode.isSome
        opcode := opcode.getD 0
        space := space
        index := index } }

end Sys2Proof.Machine
end

