-- ==== Sys2Proof/Machine/Operands.lean ====
section
/-! DEFINITION. The operand forms (spec/30_encoding.md R83, R84) and their validation (spec/40_execution_cycle.md R115):
register operands; the one immediate, LDI's byte 2, is used as it stands and needs no operation. -/

namespace Sys2Proof.Machine

/-- `RegIdx(b)` (R8, R26): `none` where it raises `OutOfBounds(REG, b)`. The index is not masked. -/
def regIdx (b : Byte) : Option Reg :=
  if h : b.toNat < 8 then some ⟨b.toNat, h⟩ else none

/-- The operand byte that names register `r` (R83). -/
def regByte (r : Reg) : Byte := BitVec.ofNat 8 r.val

/-- One register operand, validated before anything else happens (R115, check 5 of R117). -/
def withReg (opcode b : Byte) (s : State) (k : Reg → Result) : Result :=
  match regIdx b with
  | some r => k r
  | none => .next (s.raise .outOfBounds .reg (zext9 b) (some opcode))

/-- Two register operands, byte 1 validated first (R115, checks 5 and 6 of R117). -/
def withRegs (opcode a b : Byte) (s : State) (k : Reg → Reg → Result) : Result :=
  withReg opcode a s (fun ra => withReg opcode b s (fun rb => k ra rb))

end Sys2Proof.Machine
end

