-- ==== Sys2Proof/Machine/Arithmetic.lean ====
section
/-! DEFINITION. The ALU and the arithmetic instructions ADD and MUL (spec/41_arithmetic.md). -/

namespace Sys2Proof.Machine

/-- The operation select of the ALU. `other` stands for every selection that is neither ADD nor MUL, which no
opcode drives (R133; log entry 12). -/
inductive AluOp where
  | add
  | mul
  | other
  deriving DecidableEq, Repr

/-- `ALU(op, a, b)` (R130): the exact integer result narrowed to 8 bits; `none` where it raises
`UnsupportedOperation` (R133). It produces no carry and no flag. -/
def alu (op : AluOp) (a b : Byte) : Option Byte :=
  match op with
  | .add => some (narrow (a.toNat + b.toNat))
  | .mul => some (narrow (a.toNat * b.toNat))
  | .other => none

/-- `x[ra] <- ALU(op, x[ra], x[rb])`, then the advance over three bytes (R131, R132); an unsupported operation faults
and changes nothing else (R133, R206). -/
def aluInto (op : AluOp) (opcode : Byte) (ra rb : Reg) (s : State) : Result :=
  match alu op (s.x ra) (s.x rb) with
  | some v => .next ((s.setX ra v).advance 3)
  | none => .next (s.raise .unsupportedOperation .mem 0 (some opcode))

/-- ADD regA, regB (R131). -/
def execAdd (regA regB : Byte) (s : State) : Result :=
  withRegs (Instr.add regA regB).opcode regA regB s
    (fun ra rb => aluInto .add (Instr.add regA regB).opcode ra rb s)

/-- MUL regA, regB (R132). -/
def execMul (regA regB : Byte) (s : State) : Result :=
  withRegs (Instr.mul regA regB).opcode regA regB s
    (fun ra rb => aluInto .mul (Instr.mul regA regB).opcode ra rb s)

end Sys2Proof.Machine
end

