-- ==== Sys2Proof/Machine/Flags.lean ====
section
/-! DEFINITION. The one flag computation of the CORE, that of CMP (spec/45_comparison.md R180, R181). No other
instruction writes a flag (R31). -/

namespace Sys2Proof.Machine

/-- The flags after comparing `a` with `b` as unsigned values: all three cleared, then exactly one set (R180). -/
def compareFlags (a b : Byte) : Flags :=
  if a.toNat = b.toNat then ⟨false, false, true⟩
  else if a.toNat < b.toNat then ⟨true, false, false⟩
  else ⟨false, true, false⟩

/-- All three flags written at once (R31). -/
def State.setFlags (s : State) (f : Flags) : State := { s with flags := f }

end Sys2Proof.Machine
end

