-- ==== Sys2Proof/Machine/Comparison.lean ====
section
/-! DEFINITION. The comparison instruction CMP (spec/45_comparison.md). -/

namespace Sys2Proof.Machine

/-- CMP regA, regB (R180). -/
def execCmp (regA regB : Byte) (s : State) : Result :=
  withRegs (Instr.cmp regA regB).opcode regA regB s
    (fun ra rb => .next ((s.setFlags (compareFlags (s.x ra) (s.x rb))).advance 3))

end Sys2Proof.Machine
end

