-- ==== Sys2Proof/Machine/Control.lean ====
section
/-! DEFINITION. The control-transfer instructions CALL, RET, JMP, JEQ and JNE (spec/44_control_transfer.md). A transfer sets
`pc` to an 8-bit target widened to 9 bits and adds no length (R116, R160). -/

namespace Sys2Proof.Machine

/-- `pc <- zext_9(target)` (R160). -/
def State.jumpTo (s : State) (target : Byte) : State := s.setPc (zext9 target)

/-- Jump to the address in `r` when `taken`, else advance over two bytes (R164, R165). -/
def branchIf (taken : Bool) (r : Reg) (s : State) : Result :=
  .next (if taken then s.jumpTo (s.x r) else s.advance 2)

/-- CALL reg (R161): after the register operand is validated, a return address above 255 faults (check 7 of R117,
decision D9); else it is pushed, and the register is read after the decrement (decision D10). -/
def execCall (reg : Byte) (s : State) : Result :=
  withReg (Instr.call reg).opcode reg s (fun r =>
    let ret := s.pc.toNat + 2
    if ret > 255 then
      .next (s.raise .outOfBounds .mem (BitVec.ofNat 9 ret) (some (Instr.call reg).opcode))
    else
      let s1 := s.decSp
      let s2 := s1.writeByte s1.sp (narrow ret)
      .next (s2.jumpTo (s2.x r)))

/-- RET (R162): reads at `sp`, then increments it (decision D20). -/
def execRet (s : State) : Result :=
  .next (s.incSp.jumpTo (s.readByte s.sp))

/-- JMP reg (R163). -/
def execJmp (reg : Byte) (s : State) : Result :=
  withReg (Instr.jmp reg).opcode reg s (fun r => .next (s.jumpTo (s.x r)))

/-- JEQ reg (R164). The register operand is validated whether or not the jump is taken (R115). -/
def execJeq (reg : Byte) (s : State) : Result :=
  withReg (Instr.jeq reg).opcode reg s (fun r => branchIf s.flags.equal r s)

/-- JNE reg (R165). The register operand is validated whether or not the jump is taken (R115). -/
def execJne (reg : Byte) (s : State) : Result :=
  withReg (Instr.jne reg).opcode reg s (fun r => branchIf (!s.flags.equal) r s)

end Sys2Proof.Machine
end

