-- ==== Sys2Proof/Machine/DataMovement.lean ====
section
/-! DEFINITION. The data-movement instructions LDI and PRN (spec/42_data_movement.md). -/

namespace Sys2Proof.Machine

/-- LDI reg, imm (R140). -/
def execLdi (reg imm : Byte) (s : State) : Result :=
  withReg (Instr.ldi reg imm).opcode reg s (fun r => .next ((s.setX r imm).advance 3))

/-- PRN reg (R141). -/
def execPrn (reg : Byte) (s : State) : Result :=
  withReg (Instr.prn reg).opcode reg s (fun r => .next ((s.emit (s.x r)).advance 2))

end Sys2Proof.Machine
end

