-- ==== Sys2Proof/Machine/Stack.lean ====
section
/-! DEFINITION. The stack instructions PUSH and POP (spec/43_stack.md), each statement of the rule's pseudocode in its
order, seeing the ones before it (R9). -/

namespace Sys2Proof.Machine

/-- PUSH reg (R151): the register is read after the decrement, so `PUSH R7` stores the new `sp` (decision D10). -/
def execPush (reg : Byte) (s : State) : Result :=
  withReg (Instr.push reg).opcode reg s (fun r =>
    let s1 := s.decSp
    .next ((s1.writeByte s1.sp (s1.x r)).advance 2))

/-- POP reg (R152): the byte read is written first and `sp` incremented after, so `POP R7` ends with the byte plus 1
(decision D10). -/
def execPop (reg : Byte) (s : State) : Result :=
  withReg (Instr.pop reg).opcode reg s (fun r =>
    let s1 := s.setX r (s.readByte s.sp)
    .next (s1.incSp.advance 2))

end Sys2Proof.Machine
end

