-- ==== Sys2Proof/Machine/System.lean ====
section
/-! DEFINITION. HALT and the bytes outside the opcode table (spec/40_execution_cycle.md R118, R119). -/

namespace Sys2Proof.Machine

/-- HALT (R118): `pc` keeps the address of the HALT byte (decision D6). -/
def execHalt (s : State) : Result := .next s.halt

/-- A byte at `pc` that is none of the 13 opcodes (R119): a fault in strict mode, a one-byte no-op in lenient mode. -/
def unknownOpcode (b0 : Byte) (s : State) : Result :=
  if s.strictDecode then .next (s.raise .unknownOpcode .mem s.pc (some b0))
  else .next (s.advance 1)

end Sys2Proof.Machine
end

