-- ==== Sys2Proof/Machine/Cycle.lean ====
section
/-! DEFINITION. The fetch of an instruction's bytes and one fetch-decode-execute cycle (spec/40_execution_cycle.md R110, R112 to
R117). -/

namespace Sys2Proof.Machine

/-- What the fetch finds at `pc`. -/
inductive Fetched where
  /-- A whole instruction of the table, its operands not yet validated. -/
  | instr (i : Instr)
  /-- A byte outside the table (R119); no operand is fetched. -/
  | unknown (b0 : Byte)
  /-- An address above 255 (R112, R114); `opcode` is `none` when it was the opcode's own. -/
  | outOfRange (opcode : Option Byte) (addr : BitVec 9)
  deriving DecidableEq, Repr

/-- The fetch at `pc` (R110): the opcode, then the operand bytes in ascending order, each range-checked as it is
fetched (checks 1, 3 and 4 of R117). -/
def fetch (s : State) : Fetched :=
  match s.memRead s.pc with
  | none => .outOfRange none s.pc
  | some b0 =>
    match lookup b0 with
    | none => .unknown b0
    | some (.f0 i) => .instr i
    | some (.f1 mk) =>
      match s.memRead (s.pc + 1) with
      | none => .outOfRange (some b0) (s.pc + 1)
      | some b1 => .instr (mk b1)
    | some (.f2 mk) =>
      match s.memRead (s.pc + 1) with
      | none => .outOfRange (some b0) (s.pc + 1)
      | some b1 =>
        match s.memRead (s.pc + 2) with
        | none => .outOfRange (some b0) (s.pc + 2)
        | some b2 => .instr (mk b1 b2)

/-- One cycle of a RUNNING core (R110). -/
def cycle (s : State) : Result :=
  match fetch s with
  | .instr i => exec i s
  | .unknown b0 => unknownOpcode b0 s
  | .outOfRange opcode addr => .next (s.raise .outOfBounds .mem addr opcode)

/-- One step (R110, R111): nothing changes in HALTED and FAULTED. -/
def stepOf (s : State) : Result :=
  match s.run with
  | .running => cycle s
  | .halted => .next s
  | .faulted => .next s

/-- Bytes stored from `pc` on, as far as memory reaches, in a core that is RUNNING (log entry 8). -/
def State.placeAtPc (s : State) (bytes : List Byte) : State :=
  { s with
    mem := s.mem.writeList s.pc.toNat (bytes.take (Config.memSize - s.pc.toNat))
    run := .running }

end Sys2Proof.Machine
end

