-- ==== Sys2Proof/Machine/Step.lean ====
section
/-! DEFINITION. The step of the CORE and the placing of one instruction where the next step fetches it. -/

namespace Sys2Proof.Machine

/-- One step of the CORE (spec/40_execution_cycle.md R110). -/
def step (s : State) : Host.Outcome State Fault Refusal := stepOf s

/-- `s` with the instruction word `w` of `nbits` bits stored at `pc`, and RUNNING (log entry 8). -/
def State.withFetchWord (s : State) (nbits w : Nat) : State := s.placeAtPc (tableBytes nbits w)

end Sys2Proof.Machine
end

