-- ==== Sys2Proof/Machine/View.lean ====
section
/-! DEFINITION. What the host and the trace hook are shown: the trace view (spec/40_execution_cycle.md R121) and the numeric
codes of spec/10_state.md R32, R33, R34. Pure functions of the state; no step reads one. -/

namespace Sys2Proof.Machine

/-- What the trace hook is shown; a byte above address 255 is absent (R121). -/
structure TraceView where
  pc : Pc
  bytes : List (Option Byte)
  regs : List Byte
  deriving DecidableEq, Repr

/-- `mem[a]`, absent above 255: not a `MemRead` (R121). -/
def State.peek (s : State) (a : Nat) : Option Byte :=
  if a > 255 then none else some (s.mem.read a)

/-- The one call of the trace hook at the start of a step, made in RUNNING only (R111, R121). -/
def traceView (s : State) : Option TraceView :=
  match s.run with
  | .running =>
    some
      { pc := s.pc
        bytes := [s.peek s.pc.toNat, s.peek (s.pc.toNat + 1), s.peek (s.pc.toNat + 2)]
        regs := s.regs.toList }
  | .halted => none
  | .faulted => none

/-- The packed flags byte `0b00000LGE` (R32). PRESUMED: the spec marks the order as general knowledge (G2); no step
depends on it (log entry 14). -/
def Flags.packed (f : Flags) : Byte :=
  (if f.less then 4 else 0) + (if f.greater then 2 else 0) + (if f.equal then 1 else 0)

/-- The two-bit code of `run` (R33). -/
def RunState.code : RunState → BitVec 2
  | .running => 0
  | .halted => 1
  | .faulted => 2

/-- The two-bit code of `fault.kind` (R34, R201). -/
def FaultKind.code : FaultKind → BitVec 2
  | .none => 0
  | .outOfBounds => 1
  | .unknownOpcode => 2
  | .unsupportedOperation => 3

/-- The one-bit code of `fault.space` (R34). -/
def FaultSpace.code : FaultSpace → BitVec 1
  | .mem => 0
  | .reg => 1

end Sys2Proof.Machine
end

