-- ==== Sys2Proof/Machine/Session.lean ====
section
/-! DEFINITION. What the host does to the CORE (spec/70_reset_and_hazards.md R240 to R246, spec/40_execution_cycle.md R120):
reset with any value of the open parameters, load a program once before the first step, make one step, run to
completion. -/

namespace Sys2Proof.Machine

/-- The machine right after reset for given open parameters (R39, R240). `State.reset` is this at
`Config.simulation`. -/
def State.resetWith (p : Config.Params) : State where
  regs := p.regInit.push Config.spReset
  pc := Config.pcReset
  flags := ⟨false, false, false⟩
  mem := Memory.writeList [] 0 p.memInit.toList
  run := .running
  fault := FaultRecord.clear
  out := []
  strictDecode := p.strictDecode

/-- Where the host stands in the boot sequence of R244. -/
inductive Phase where
  | constructed
  | loaded
  | started
  deriving DecidableEq, Repr

/-- A CORE with its host: the boot phase is the host's protocol, not state of the CORE (R20). -/
structure Session where
  core : State
  phase : Phase
  deriving DecidableEq, Repr

/-- Reset, whatever went before (R41, R240). -/
def Session.construct (p : Config.Params) : Session := ⟨State.resetWith p, .constructed⟩

/-- `load(program)` on a memory (R243): the length is checked before any byte is written. -/
def loadMemory (m : Memory) (program : List Byte) : Option Memory :=
  if program.length > Config.memSize then none else some (m.writeList Config.loadBase program)

/-- `load(program) -> Result<(), LoadError>` (R243): the session after it and the reply. A load of more than 256 bytes
fails and writes nothing; a second load, or a load after a step, is refused (R244, decision D15). DESIGN CHOICE, unsafe
(log entry 19): the spec does not say whether a load tried again after a failed one is the second load that R40 and R244
give no meaning; here a failed load leaves the phase at `constructed`, so the retry is accepted. -/
def Session.load (ss : Session) (program : List Byte) : Session × Host.Outcome Unit Fault Refusal :=
  match ss.phase with
  | .constructed =>
    match loadMemory ss.core.mem program with
    | none => (ss, .fault .programTooLarge)
    | some m => (⟨{ ss.core with mem := m }, .loaded⟩, .next ())
  | .loaded => (ss, .refused .lateLoad)
  | .started => (ss, .refused .lateLoad)

/-- One step asked for by the host (R120). -/
def Session.step (ss : Session) : Host.Outcome Session Fault Refusal :=
  match Sys2Proof.Machine.step ss.core with
  | .next t => .next ⟨t, .started⟩
  | .fault f => .fault f
  | .refused r => .refused r

/-- `run()` (R120): steps while RUNNING and answers the state at the first boundary where it is not. A run need not
end, so it is given how many steps it may make; `none` where they do not suffice. -/
def runToEnd (s : State) : Nat → Option State
  | 0 => if s.run = .running then none else some s
  | k + 1 =>
    if s.run = .running then
      match step s with
      | .next t => runToEnd t k
      | .fault _ => none
      | .refused _ => none
    else some s

end Sys2Proof.Machine
end

