-- ==== Sys2Proof/Safety.lean ====
section
/-! DEFINITION. The terms statements are made in: frames, the fault conditions of spec/60_exceptions.md R202 as a table
of their own, and the invariants of the machine. Nothing here is part of the machine. -/

namespace Sys2Proof.Machine

/-- The bytes at `pc`, `pc + 1`, `pc + 2`. -/
def State.byteAtPc (s : State) (k : Nat) : Byte := s.mem.read (s.pc.toNat + k)

/-! ### Frames -/

/-- Every register but those listed is unchanged; `sp` is register 7. -/
def SameRegsBut (s t : State) (rs : List Reg) : Prop := ∀ r : Reg, r ∉ rs → t.x r = s.x r

/-- Every byte of memory but those at the listed addresses is unchanged. -/
def SameMemBut (s t : State) (addrs : List Nat) : Prop := ∀ a : Nat, a ∉ addrs → t.mem.read a = s.mem.read a

/-- The run state, the fault record and the decode strap are unchanged. -/
def SameStatus (s t : State) : Prop := t.run = s.run ∧ t.fault = s.fault ∧ t.strictDecode = s.strictDecode

/-- The frame of an instruction that writes the registers `rs` and the memory bytes `addrs` and nothing else but
`pc`: flags, output and status unchanged. -/
def FrameBut (s t : State) (rs : List Reg) (addrs : List Nat) : Prop :=
  SameRegsBut s t rs ∧ SameMemBut s t addrs ∧ t.flags = s.flags ∧ t.out = s.out ∧ SameStatus s t

/-- `t` is `s` after a fault with record `f`: `run` and `fault` have changed and nothing else (R203). -/
def FaultedWith (s t : State) (f : FaultRecord) : Prop := t = { s with run := .faulted, fault := f }

/-- `t` is `s` after `OutOfBounds(space, index)`, saying nothing of the record's other fields. -/
def RaisesOutOfBounds (s t : State) (space : FaultSpace) (index : Nat) : Prop :=
  t.fault.kind = .outOfBounds ∧ t.fault.space = space ∧ t.fault.index.toNat = index ∧ FaultedWith s t t.fault

/-- The core is RUNNING with the opcode byte `op` at `pc`. -/
def FetchesOpcode (s : State) (op : Byte) : Prop := s.run = .running ∧ s.pc.toNat ≤ 255 ∧ s.byteAtPc 0 = op

/-! ### The causes of a fault (R202), in the order of checks of R117 -/

/-- Opcodes with no operand byte (R81, F0). -/
def opcodesF0 : List Byte := [0x01, 0x11]
/-- Opcodes with one operand byte (R81, F1R). -/
def opcodesF1R : List Byte := [0x45, 0x46, 0x47, 0x50, 0x54, 0x55, 0x56]
/-- Opcodes with a register and an immediate (R81, F2RI). -/
def opcodesF2RI : List Byte := [0x82]
/-- Opcodes with two registers (R81, F2RR). -/
def opcodesF2RR : List Byte := [0xA0, 0xA2, 0xA7]
/-- The 13 opcodes of R85. -/
def knownOpcodes : List Byte := opcodesF0 ++ opcodesF1R ++ opcodesF2RI ++ opcodesF2RR

/-- The causes of R202 and the record each writes (R203). Each cause holds only where the checks before it in R117
pass. -/
inductive FaultCause (s : State) : FaultRecord → Prop where
  /-- (a) The opcode fetch is out of range. -/
  | opcodeFetch (h : 255 < s.pc.toNat) :
      FaultCause s ⟨.outOfBounds, s.pc, false, 0, .mem, s.pc⟩
  /-- (b) The byte at `pc` is no opcode, in strict mode. -/
  | unknownOpcode (h : s.pc.toNat ≤ 255) (hs : s.strictDecode = true) (ho : s.byteAtPc 0 ∉ knownOpcodes) :
      FaultCause s ⟨.unknownOpcode, s.pc, true, s.byteAtPc 0, .mem, s.pc⟩
  /-- (c) The first operand byte would lie at 256. -/
  | firstOperandFetch (h : s.pc.toNat = 255) (ho : s.byteAtPc 0 ∈ opcodesF1R ++ opcodesF2RI ++ opcodesF2RR) :
      FaultCause s ⟨.outOfBounds, s.pc, true, s.byteAtPc 0, .mem, 256⟩
  /-- (d) The second operand byte would lie at 256. -/
  | secondOperandFetch (h : s.pc.toNat = 254) (ho : s.byteAtPc 0 ∈ opcodesF2RI ++ opcodesF2RR) :
      FaultCause s ⟨.outOfBounds, s.pc, true, s.byteAtPc 0, .mem, 256⟩
  /-- (e) The first operand byte of a one-operand instruction is no register index. -/
  | onlyRegister (h : s.pc.toNat ≤ 254) (ho : s.byteAtPc 0 ∈ opcodesF1R) (hb : 7 < (s.byteAtPc 1).toNat) :
      FaultCause s ⟨.outOfBounds, s.pc, true, s.byteAtPc 0, .reg, (s.byteAtPc 1).setWidth 9⟩
  /-- (e) The first operand byte of a two-operand instruction is no register index. -/
  | firstRegister (h : s.pc.toNat ≤ 253) (ho : s.byteAtPc 0 ∈ opcodesF2RI ++ opcodesF2RR)
      (hb : 7 < (s.byteAtPc 1).toNat) :
      FaultCause s ⟨.outOfBounds, s.pc, true, s.byteAtPc 0, .reg, (s.byteAtPc 1).setWidth 9⟩
  /-- (f) The second operand byte is no register index. -/
  | secondRegister (h : s.pc.toNat ≤ 253) (ho : s.byteAtPc 0 ∈ opcodesF2RR) (ha : (s.byteAtPc 1).toNat ≤ 7)
      (hb : 7 < (s.byteAtPc 2).toNat) :
      FaultCause s ⟨.outOfBounds, s.pc, true, s.byteAtPc 0, .reg, (s.byteAtPc 2).setWidth 9⟩
  /-- (g) CALL's return address would be 256. -/
  | returnAddress (h : s.pc.toNat = 254) (ho : s.byteAtPc 0 = 0x50) (hb : (s.byteAtPc 1).toNat ≤ 7) :
      FaultCause s ⟨.outOfBounds, s.pc, true, s.byteAtPc 0, .mem, 256⟩

/-! ### What each instruction leaves, read off its rule -/

/-- ADD (R131). -/
def PostAdd (s : State) (ra rb : Reg) (t : State) : Prop :=
  (t.x ra).toNat = ((s.x ra).toNat + (s.x rb).toNat) % 256 ∧ t.pc = s.pc + 3 ∧ FrameBut s t [ra] []

/-- MUL (R132). -/
def PostMul (s : State) (ra rb : Reg) (t : State) : Prop :=
  (t.x ra).toNat = ((s.x ra).toNat * (s.x rb).toNat) % 256 ∧ t.pc = s.pc + 3 ∧ FrameBut s t [ra] []

/-- LDI (R140). -/
def PostLdi (s : State) (r : Reg) (imm : Byte) (t : State) : Prop :=
  t.x r = imm ∧ t.pc = s.pc + 3 ∧ FrameBut s t [r] []

/-- PRN (R141): everything but `pc` and the output is unchanged. -/
def PostPrn (s : State) (r : Reg) (t : State) : Prop :=
  t.out = s.out ++ [s.x r] ∧ t.pc = s.pc + 2 ∧ SameRegsBut s t [] ∧ SameMemBut s t [] ∧ t.flags = s.flags ∧
    SameStatus s t

/-- PUSH (R151): the byte stored is the register's, read after the decrement. -/
def PostPush (s : State) (r : Reg) (t : State) : Prop :=
  t.sp = s.sp - 1 ∧ t.mem.read (s.sp - 1).toNat = (if r = 7 then s.sp - 1 else s.x r) ∧ t.pc = s.pc + 2 ∧
    FrameBut s t [7] [(s.sp - 1).toNat]

/-- POP (R152): the increment comes after the write of the register. -/
def PostPop (s : State) (r : Reg) (t : State) : Prop :=
  (r ≠ 7 → t.x r = s.mem.read s.sp.toNat ∧ t.sp = s.sp + 1) ∧ (r = 7 → t.sp = s.mem.read s.sp.toNat + 1) ∧
    t.pc = s.pc + 2 ∧ FrameBut s t [r, 7] []

/-- CALL (R161) with a return address that fits. -/
def PostCall (s : State) (r : Reg) (t : State) : Prop :=
  t.sp = s.sp - 1 ∧ (t.mem.read (s.sp - 1).toNat).toNat = s.pc.toNat + 2 ∧
    t.pc.toNat = (if r = 7 then s.sp - 1 else s.x r).toNat ∧ FrameBut s t [7] [(s.sp - 1).toNat]

/-- RET (R162). -/
def PostRet (s t : State) : Prop :=
  t.pc.toNat = (s.mem.read s.sp.toNat).toNat ∧ t.sp = s.sp + 1 ∧ FrameBut s t [7] []

/-- JMP (R163). -/
def PostJmp (s : State) (r : Reg) (t : State) : Prop := t.pc.toNat = (s.x r).toNat ∧ FrameBut s t [] []

/-- JEQ (R164). -/
def PostJeq (s : State) (r : Reg) (t : State) : Prop :=
  (s.flags.equal = true → t.pc.toNat = (s.x r).toNat) ∧ (s.flags.equal = false → t.pc = s.pc + 2) ∧ FrameBut s t [] []

/-- JNE (R165). -/
def PostJne (s : State) (r : Reg) (t : State) : Prop :=
  (s.flags.equal = false → t.pc.toNat = (s.x r).toNat) ∧ (s.flags.equal = true → t.pc = s.pc + 2) ∧ FrameBut s t [] []

/-- CMP (R180): all three flags written, everything else but `pc` unchanged. -/
def PostCmp (s : State) (ra rb : Reg) (t : State) : Prop :=
  (t.flags.equal = true ↔ (s.x ra).toNat = (s.x rb).toNat) ∧ (t.flags.less = true ↔ (s.x ra).toNat < (s.x rb).toNat) ∧
    (t.flags.greater = true ↔ (s.x rb).toNat < (s.x ra).toNat) ∧ t.pc = s.pc + 3 ∧ SameRegsBut s t [] ∧
    SameMemBut s t [] ∧ t.out = s.out ∧ SameStatus s t

/-- HALT (R118): `run` is HALTED and nothing else has changed. -/
def PostHalt (s t : State) : Prop := t = { s with run := .halted }

/-! ### A whole rule of one format: its faults in the order of R117, then its effect -/

/-- Format F0: no operand. -/
def RuleF0 (op : Byte) (post : State → State → Prop) (s : State) : Prop :=
  FetchesOpcode s op → ∃ t, step s = .next t ∧ post s t

/-- Format F1R: one register operand. -/
def RuleF1R (op : Byte) (post : State → Reg → State → Prop) (s : State) : Prop :=
  FetchesOpcode s op → ∃ t, step s = .next t ∧
    (s.pc.toNat = 255 → RaisesOutOfBounds s t .mem 256) ∧
    (s.pc.toNat ≤ 254 → 7 < (s.byteAtPc 1).toNat → RaisesOutOfBounds s t .reg (s.byteAtPc 1).toNat) ∧
    (∀ r : Reg, s.pc.toNat ≤ 254 → (s.byteAtPc 1).toNat = r.val → post s r t)

/-- Format F2RI: a register operand and an immediate. -/
def RuleF2RI (op : Byte) (post : State → Reg → Byte → State → Prop) (s : State) : Prop :=
  FetchesOpcode s op → ∃ t, step s = .next t ∧
    (254 ≤ s.pc.toNat → RaisesOutOfBounds s t .mem 256) ∧
    (s.pc.toNat ≤ 253 → 7 < (s.byteAtPc 1).toNat → RaisesOutOfBounds s t .reg (s.byteAtPc 1).toNat) ∧
    (∀ r : Reg, s.pc.toNat ≤ 253 → (s.byteAtPc 1).toNat = r.val → post s r (s.byteAtPc 2) t)

/-- Format F2RR: two register operands. -/
def RuleF2RR (op : Byte) (post : State → Reg → Reg → State → Prop) (s : State) : Prop :=
  FetchesOpcode s op → ∃ t, step s = .next t ∧
    (254 ≤ s.pc.toNat → RaisesOutOfBounds s t .mem 256) ∧
    (s.pc.toNat ≤ 253 → 7 < (s.byteAtPc 1).toNat → RaisesOutOfBounds s t .reg (s.byteAtPc 1).toNat) ∧
    (s.pc.toNat ≤ 253 → (s.byteAtPc 1).toNat ≤ 7 → 7 < (s.byteAtPc 2).toNat →
      RaisesOutOfBounds s t .reg (s.byteAtPc 2).toNat) ∧
    (∀ ra rb : Reg, s.pc.toNat ≤ 253 → (s.byteAtPc 1).toNat = ra.val → (s.byteAtPc 2).toNat = rb.val →
      post s ra rb t)

/-! ### Invariants -/

/-- `0 <= pc <= 256` (R29). -/
def PcInRange (s : State) : Prop := s.pc.toNat ≤ 256

/-- How many of three flags are set. -/
def Flags.count (f : Flags) : Nat := f.less.toNat + f.greater.toNat + f.equal.toNat

/-- At most one flag is set (R32). -/
def FlagsAtMostOne (s : State) : Prop := s.flags.count ≤ 1

/-- The record of a fault that has happened, field by field (R34); `unsupportedOperation` never happens (R133). -/
def FaultRecord.Sound (f : FaultRecord) : Prop :=
  match f.kind with
  | .none => False
  | .outOfBounds =>
    (f.space = .mem ∧ f.index = 256 ∧ (f.opcodeValid = false → f.pc = 256 ∧ f.opcode = 0) ∧
      (f.opcodeValid = true → f.pc = 254 ∨ f.pc = 255)) ∨
    (f.space = .reg ∧ 8 ≤ f.index.toNat ∧ f.index.toNat ≤ 255 ∧ f.opcodeValid = true ∧ f.pc.toNat ≤ 254)
  | .unknownOpcode =>
    f.space = .mem ∧ f.index = f.pc ∧ f.pc.toNat ≤ 255 ∧ f.opcodeValid = true ∧ f.opcode ∉ knownOpcodes
  | .unsupportedOperation => False

/-- The record is clear until the core is FAULTED, and then sound and about the instruction at `pc` (R34, R203). -/
def FaultRecordFits (s : State) : Prop :=
  (s.run ≠ .faulted → s.fault = FaultRecord.clear) ∧
  (s.run = .faulted → s.fault.Sound ∧ s.fault.pc = s.pc)

/-- The invariant of the CORE: R29, R32, R34, and the canonical form of memory. -/
def State.Inv (s : State) : Prop := PcInRange s ∧ FlagsAtMostOne s ∧ FaultRecordFits s ∧ s.mem.wf

/-- A safe state: no fault has ended the run (R222). -/
def State.Safe (s : State) : Prop := s.run ≠ .faulted

end Sys2Proof.Machine
end

