-- ==== Sys2Proof/Certificates/Slice0/Obligations.lean ====
section
/-! DEFINITION. The statements for the provers, family by family. Each docstring names the rule of spec/ a statement
formalises, and says where a clause rests on a decision or inference the spec marks as its own. -/

open Sys2Proof Sys2Proof.Machine

/-! ### Encoding -/

/-- R81, R85, R93: every instruction, with every value of every operand byte, is what its own bytes decode to, and
the bytes after it are left over; so no bytes begin with the encodings of two instructions. -/
def Obligations.DecodeOfEncodeIsTheInstruction : Prop :=
  (∀ (i : Instr) (rest : List Byte), decode (encode i ++ rest) = .ok (i, rest)) ∧
  ∀ (i j : Instr) (rest rest' : List Byte), encode i ++ rest = encode j ++ rest' → i = j ∧ rest = rest'

/-- R82, R85, R93: bytes decode to an instruction only where they begin with exactly its encoding. -/
def Obligations.DecodeAcceptsOnlyEncodings : Prop :=
  ∀ (bytes : List Byte) (i : Instr) (rest : List Byte), decode bytes = .ok (i, rest) → bytes = encode i ++ rest

/-- R82, R93, with the rows of R85: the whole first byte selects one of the 13 rows, whose format says which bytes
follow, or is an unknown opcode; every first byte has exactly one outcome. -/
def Obligations.OpcodeMapIsTheTable : Prop :=
  ∀ (b1 b2 : Byte) (rest : List Byte),
    decode (1 :: rest) = .ok (.halt, rest) ∧ decode (17 :: rest) = .ok (.ret, rest) ∧
    decode (69 :: b1 :: rest) = .ok (.push b1, rest) ∧ decode (70 :: b1 :: rest) = .ok (.pop b1, rest) ∧
    decode (71 :: b1 :: rest) = .ok (.prn b1, rest) ∧ decode (80 :: b1 :: rest) = .ok (.call b1, rest) ∧
    decode (84 :: b1 :: rest) = .ok (.jmp b1, rest) ∧ decode (85 :: b1 :: rest) = .ok (.jeq b1, rest) ∧
    decode (86 :: b1 :: rest) = .ok (.jne b1, rest) ∧ decode (130 :: b1 :: b2 :: rest) = .ok (.ldi b1 b2, rest) ∧
    decode (160 :: b1 :: b2 :: rest) = .ok (.add b1 b2, rest) ∧
    decode (162 :: b1 :: b2 :: rest) = .ok (.mul b1 b2, rest) ∧
    decode (167 :: b1 :: b2 :: rest) = .ok (.cmp b1 b2, rest) ∧
    ∀ b0 : Byte, b0.toNat ∉ [1, 17, 69, 70, 71, 80, 84, 85, 86, 130, 160, 162, 167] →
      decode (b0 :: rest) = .error (.unknownOpcode b0)

/-- R80: an instruction is 1, 2 or 3 bytes long, and its opcode byte alone fixes which. -/
def Obligations.OpcodeFixesLength : Prop :=
  ∀ (bytes bytes' : List Byte) (i j : Instr) (rest rest' : List Byte),
    decode bytes = .ok (i, rest) → decode bytes' = .ok (j, rest') →
      1 ≤ bytes.length - rest.length ∧ bytes.length - rest.length ≤ 3 ∧
      (bytes.head? = bytes'.head? → bytes.length - rest.length = bytes'.length - rest'.length)

/-- Sanity: words written out from R81 and R85, numbered as spec/opcode_table.json numbers them. -/
def Obligations.TableWordsDecode : Prop :=
  decodeTableWord 8 0x01 = some .halt ∧ decodeTableWord 16 0x0745 = some (.push 7) ∧
  decodeTableWord 16 0x0247 = some (.prn 2) ∧ decodeTableWord 16 0x0150 = some (.call 1) ∧
  decodeTableWord 24 0x080082 = some (.ldi 0 8) ∧ decodeTableWord 24 0x0100A0 = some (.add 0 1) ∧
  decodeTableWord 24 0x0301A7 = some (.cmp 1 3) ∧ decodeTableWord 8 0x00 = none

/-- R54, R63 (its fetch coherence is decision D13): an instruction's bytes stored at `pc`, where they fit, are what
the next step executes, whatever memory held. -/
def Obligations.StoredInstructionIsExecuted : Prop :=
  ∀ (s : State) (i : Instr), s.pc.toNat + (encode i).length ≤ 256 →
    step (s.placeAtPc (encode i)) = exec i (s.placeAtPc (encode i))

/-! ### The step -/

/-- R110: where the bytes from `pc` on decode to an instruction, a step of a RUNNING core is that instruction's
execution and nothing around it. -/
def Obligations.StepRunsTheDecodedInstruction : Prop :=
  ∀ (s : State) (i : Instr) (rest : List Byte), s.run = .running →
    decode (s.bytesFrom s.pc.toNat) = .ok (i, rest) → step s = exec i s

/-- Every step, from every state, and the execution of every instruction answer a next state; no run gets stuck, and
none is stopped or refused. For a RUNNING core this is R256 (an inference the spec marks as derived); for HALTED and
FAULTED it is R111 with decision D19; that a fault is a next state is the model's reading, log entry 5 (DEDUCED). -/
def Obligations.EveryStepAnswersANextState : Prop :=
  (∀ s : State, ∃ t, step s = .next t) ∧ ∀ (i : Instr) (s : State), ∃ t, exec i s = .next t

/-- R208: HALTED and FAULTED are terminal: however many steps are asked for, nothing changes, the fault record
included. -/
def Obligations.TerminalStatesAreFinal : Prop :=
  ∀ (s : State) (k : Nat), s.run ≠ .running → Host.Core.run core k s = .next s

/-- R222, every row of the run-state machine; which steps raise a fault is read from `FaultCause` (R202, whose CALL case
and order of checks are decisions D9 and D7). -/
def Obligations.RunStateMachineRows : Prop :=
  (∀ p : Config.Params, (State.resetWith p).run = .running) ∧
  ∀ s t : State, step s = .next t →
    (s.run = .halted → t = s) ∧ (s.run = .faulted → t = s) ∧
    (FetchesOpcode s 0x01 → t.run = .halted) ∧
    (s.run = .running → (∃ f, FaultCause s f) → t.run = .faulted) ∧
    (s.run = .running → ¬ FetchesOpcode s 0x01 → (¬ ∃ f, FaultCause s f) → t.run = .running)

/-- R28, the table of `pc` changes for a step that completes; HALT's row is decision D6. CALL's target is read after the
decrement (R161, decision D10), so for CALL R7 too it is the register as the step leaves it. -/
def Obligations.PcChangesAsTheTableSays : Prop :=
  ∀ s t : State, s.run = .running → step s = .next t → t.run ≠ .faulted →
    (s.byteAtPc 0 ∈ [0x45, 0x46, 0x47] → t.pc.toNat = s.pc.toNat + 2) ∧
    (s.byteAtPc 0 ∈ [0x82, 0xA0, 0xA2, 0xA7] → t.pc.toNat = s.pc.toNat + 3) ∧
    (∀ r : Reg, (s.byteAtPc 1).toNat = r.val → s.byteAtPc 0 ∈ [0x50, 0x54] → t.pc.toNat = (t.x r).toNat) ∧
    (∀ r : Reg, (s.byteAtPc 1).toNat = r.val → s.byteAtPc 0 = 0x55 →
      t.pc.toNat = if s.flags.equal then (s.x r).toNat else s.pc.toNat + 2) ∧
    (∀ r : Reg, (s.byteAtPc 1).toNat = r.val → s.byteAtPc 0 = 0x56 →
      t.pc.toNat = if s.flags.equal then s.pc.toNat + 2 else (s.x r).toNat) ∧
    (s.byteAtPc 0 = 0x11 → t.pc.toNat = (s.mem.read s.sp.toNat).toNat) ∧
    (s.byteAtPc 0 = 0x01 → t.pc = s.pc) ∧
    (s.byteAtPc 0 ∉ knownOpcodes → t.pc.toNat = s.pc.toNat + 1)

/-- R205: an unknown opcode faults in strict mode with the byte and its address in the record, and raises nothing in
lenient mode, where it advances `pc` by 1 and is otherwise a no-op. -/
def Obligations.UnknownOpcodeInBothModes : Prop :=
  ∀ s : State, s.run = .running → s.pc.toNat ≤ 255 → s.byteAtPc 0 ∉ knownOpcodes → ∃ t, step s = .next t ∧
    (s.strictDecode = true → t.run = .faulted ∧ t.fault.kind = .unknownOpcode ∧ t.fault.opcode = s.byteAtPc 0 ∧
      t.fault.pc = s.pc ∧ t.fault.index = s.pc) ∧
    (s.strictDecode = false → t.run = .running ∧ t.pc.toNat = s.pc.toNat + 1 ∧ FrameBut s t [] [])

/-! ### Faults -/

/-- R26, R83: a register operand byte of 8 to 255, its upper bits not ignored, makes each of the 11 instructions with a
register operand raise `OutOfBounds(REG, value)` before it changes any state; of two operands the first invalid one is
reported. A byte of 0 to 7 names that register. -/
def Obligations.IllegalRegisterOperandsRaise : Prop :=
  (∀ b : Byte, b.toNat ≤ 7 → ∃ r : Reg, regIdx b = some r ∧ r.val = b.toNat) ∧
  ∀ s : State,
    (∀ b : Byte, 7 < b.toNat →
      ∀ i ∈ [Instr.push b, .pop b, .prn b, .call b, .jmp b, .jeq b, .jne b],
        ∃ t, exec i s = .next t ∧ RaisesOutOfBounds s t .reg b.toNat) ∧
    (∀ b c : Byte, 7 < b.toNat →
      ∀ i ∈ [Instr.ldi b c, .add b c, .mul b c, .cmp b c],
        ∃ t, exec i s = .next t ∧ RaisesOutOfBounds s t .reg b.toNat) ∧
    (∀ a b : Byte, a.toNat ≤ 7 → 7 < b.toNat →
      ∀ i ∈ [Instr.add a b, .mul a b, .cmp a b],
        ∃ t, exec i s = .next t ∧ RaisesOutOfBounds s t .reg b.toNat)

/-- R202, R117, R203 (decisions D7, D8, D9): a RUNNING core's step ends FAULTED exactly where a listed cause holds, with
exactly that cause's record, and then nothing but `run` and `fault` has changed. For `pc` from 257 to 511, which no run
reaches and R202 does not list, the opcode fetch faults with `pc` as the index: the model's reading, log entry 16
(DEDUCED). -/
def Obligations.FaultsExactlyOnTheListedCauses : Prop :=
  ∀ (s : State) (f : FaultRecord), s.run = .running →
    (FaultCause s f ↔ ∃ t, step s = .next t ∧ t.run = .faulted ∧ t.fault = f ∧ FaultedWith s t f)

/-- R203, R117 (decisions D7, D8): a faulting step is precise, and its record is about the instruction at `pc`. -/
def Obligations.FaultingStepChangesOnlyRunAndRecord : Prop :=
  ∀ s t : State, s.run = .running → step s = .next t → t.run = .faulted →
    FaultedWith s t t.fault ∧ t.fault.pc = s.pc ∧
    (t.fault.opcodeValid = true → t.fault.opcode = s.byteAtPc 0 ∧ s.pc.toNat ≤ 255) ∧
    (t.fault.opcodeValid = false → t.fault.opcode = 0 ∧ 255 < s.pc.toNat)

/-- R112 (decision D1): with `pc` past the last cell the opcode fetch faults, and no opcode is recorded. -/
def Obligations.OpcodeFetchPastTheEndFaults : Prop :=
  ∀ s : State, s.run = .running → s.pc = 256 →
    ∃ t, step s = .next t ∧ FaultedWith s t ⟨.outOfBounds, 256, false, 0, .mem, 256⟩

/-- R114 (decision D7): an operand address of 256 faults, whatever the bytes are, and does not wrap. -/
def Obligations.OperandFetchPastTheEndFaults : Prop :=
  ∀ s : State, s.run = .running →
    (s.pc = 255 ∧ s.byteAtPc 0 ∈ opcodesF1R ++ opcodesF2RI ++ opcodesF2RR ∨
      s.pc = 254 ∧ s.byteAtPc 0 ∈ opcodesF2RI ++ opcodesF2RR) →
    ∃ t, step s = .next t ∧ FaultedWith s t ⟨.outOfBounds, s.pc, true, s.byteAtPc 0, .mem, 256⟩

/-- R207 (decision D7): the four examples of priority. -/
def Obligations.FirstFailingCheckIsReported : Prop :=
  ∀ s : State, s.run = .running → ∃ t, step s = .next t ∧
    (s.pc = 255 → s.byteAtPc 0 ∉ knownOpcodes → s.strictDecode = true → t.fault.kind = .unknownOpcode) ∧
    (s.pc = 254 → s.byteAtPc 0 = 0x82 → s.byteAtPc 1 = 9 → RaisesOutOfBounds s t .mem 256) ∧
    (s.pc.toNat ≤ 253 → s.byteAtPc 0 = 0xA0 → 7 < (s.byteAtPc 1).toNat → 7 < (s.byteAtPc 2).toNat →
      RaisesOutOfBounds s t .reg (s.byteAtPc 1).toNat) ∧
    (s.pc = 254 → s.byteAtPc 0 = 0x50 → 7 < (s.byteAtPc 1).toNat →
      RaisesOutOfBounds s t .reg (s.byteAtPc 1).toNat)

/-- R130: the ALU's two operations, each narrowed to 8 bits, with no other result. Beside them, from R133, R206 and R203:
any other selection raises `UnsupportedOperation` and changes no other state; the select that stands for any other
operation is the model's own, log entry 12 (DEDUCED). -/
def Obligations.AluOperations : Prop :=
  (∀ a b : Byte, ∃ v, alu .add a b = some v ∧ v.toNat = (a.toNat + b.toNat) % 256) ∧
  (∀ a b : Byte, ∃ v, alu .mul a b = some v ∧ v.toNat = (a.toNat * b.toNat) % 256) ∧
  ∀ (op : Byte) (ra rb : Reg) (s : State), ∃ t, aluInto .other op ra rb s = .next t ∧
    t.fault.kind = .unsupportedOperation ∧ FaultedWith s t t.fault

/-- R133, R206 (an inference the spec marks as derived): no step, from any state, raises `UnsupportedOperation`. -/
def Obligations.NoStepRaisesUnsupportedOperation : Prop :=
  ∀ s t : State, s.run = .running → step s = .next t → t.run = .faulted → t.fault.kind ≠ .unsupportedOperation

/-! ### Reset, loading and running -/

/-- R240: what reset leaves, for every value of the open parameters, whatever the state was; the first step then
fetches at address 0. That the strap STRICT_DECODE (R4, R35) stands in the state is the model's choice, log entry 3. -/
def Obligations.ResetLeavesTheListedValues : Prop :=
  ∀ p : Config.Params,
    (State.resetWith p).pc = 0 ∧ (State.resetWith p).sp = 0xF4 ∧ (State.resetWith p).x 7 = 0xF4 ∧
    (State.resetWith p).flags = ⟨false, false, false⟩ ∧ (State.resetWith p).run = .running ∧
    (State.resetWith p).fault = FaultRecord.clear ∧ (State.resetWith p).out = [] ∧
    (∀ i : Fin 7, (State.resetWith p).x ⟨i.val, by omega⟩ = p.regInit[i]) ∧
    (∀ a : Fin 256, (State.resetWith p).mem.read a.val = p.memInit[a]) ∧
    (State.resetWith p).strictDecode = p.strictDecode

/-- The model's reset (log entries 1, 2 and 3 are its own choices) is the reset of R240 at the simulation defaults of
R4, and every reset meets the invariant. -/
def Obligations.ResetMeetsTheInvariant : Prop :=
  State.reset = State.resetWith Config.simulation ∧ State.reset.Inv ∧ ∀ p : Config.Params, (State.resetWith p).Inv

/-- R243 (that a failed load writes nothing is decision D15): a load before the first step writes the program from
address 0, leaves every other cell and everything but memory as it was, and fails for more than 256 bytes. Two clauses
are the model's own: that canonical memory stays canonical (log entry 2, DESIGN CHOICE), and that a failed load leaves
the session where a load can be tried again (log entry 19, DESIGN CHOICE). -/
def Obligations.LoadWritesTheProgram : Prop :=
  ∀ (ss : Session) (program : List Byte), ss.phase = .constructed →
    (program.length ≤ 256 → ∃ m : Memory,
      ss.load program = (⟨{ ss.core with mem := m }, .loaded⟩, .next ()) ∧
      (∀ (a : Nat) (h : a < program.length), m.read a = program[a]) ∧
      (∀ a : Nat, program.length ≤ a → m.read a = ss.core.mem.read a) ∧ (ss.core.mem.wf → m.wf)) ∧
    (256 < program.length → ss.load program = (ss, .fault .programTooLarge))

/-- R244 (decision D15): once a program is loaded or a step is made, a load is refused and changes nothing. -/
def Obligations.LateLoadIsRefused : Prop :=
  ∀ (ss : Session) (first second : List Byte),
    ((ss.load first).2 = .next () → (ss.load first).1.load second = ((ss.load first).1, .refused .lateLoad)) ∧
    ∃ ss' : Session, ss.step = .next ss' ∧ ss'.load second = (ss', .refused .lateLoad)

/-- R120: a run to completion and single steps give the same states: `runToEnd` answers the state at the first step
boundary where the core is not RUNNING. That a run is given a budget of `n` steps and answers nothing where they do not
suffice is the model's choice, log entry 18 (DESIGN CHOICE). -/
def Obligations.RunToEndIsSingleSteps : Prop :=
  ∀ (s t : State) (n : Nat), runToEnd s n = some t ↔
    ∃ k ≤ n, Host.Core.run core k s = .next t ∧ t.run ≠ .running ∧
      ∀ j < k, ∃ u : State, Host.Core.run core j s = .next u ∧ u.run = .running

/-! ### Invariants of every step -/

/-- The canonical form of memory (the model's own, log entry 2) is kept by every step. -/
def Obligations.StepKeepsMemoryCanonical : Prop :=
  ∀ s t : State, s.mem.wf → step s = .next t → t.mem.wf

/-- In the canonical form, memories that read alike are the same data. -/
def Obligations.CanonicalMemoriesThatReadAlikeAreEqual : Prop :=
  ∀ m m' : Memory, m.wf → m'.wf → (∀ a : Nat, m.read a = m'.read a) → m = m'

/-- R29 (an inference the spec marks as derived; the width of `pc` is decision D1): `pc` stays between 0 and 256. -/
def Obligations.StepKeepsPcInRange : Prop := ∀ s t : State, PcInRange s → step s = .next t → PcInRange t

/-- R32 (an inference the spec marks as derived): at most one flag is set, and after a step that executes CMP to its
end exactly one is. -/
def Obligations.StepKeepsAtMostOneFlag : Prop :=
  ∀ s t : State, step s = .next t → (FlagsAtMostOne s → FlagsAtMostOne t) ∧
    (FetchesOpcode s 0xA7 → t.run = .running → t.flags.count = 1)

/-- R34, R203 (decisions D7, D8): the fault record is clear until a fault, and then holds what R34 says of its fields. -/
def Obligations.StepKeepsFaultRecordFitting : Prop :=
  ∀ s t : State, PcInRange s → FaultRecordFits s → step s = .next t → FaultRecordFits t

/-- R29, R32, R34 and the canonical form together, along any number of steps from any state that meets them: the
run always answers a next state, and that state meets them. -/
def Obligations.RunsKeepTheInvariant : Prop :=
  ∀ (s : State) (k : Nat), s.Inv → ∃ t : State, Host.Core.run core k s = .next t ∧ t.Inv

/-- R4, R35 (holding the strap in the state is the model's choice, log entry 3): no step changes it. -/
def Obligations.StepKeepsTheDecodeStrap : Prop :=
  ∀ s t : State, step s = .next t → t.strictDecode = s.strictDecode

/-! ### Whole-machine rules -/

/-- R37 (decision D18): a step leaves the output as it is or, only where PRN is fetched, appends one byte. -/
def Obligations.OutputIsAppendOnly : Prop :=
  ∀ s t : State, step s = .next t →
    t.out = s.out ∨ (FetchesOpcode s 0x47 ∧ ∃ v : Byte, t.out = s.out ++ [v])

/-- R31 (an inference the spec marks as derived): only CMP changes a flag. -/
def Obligations.OnlyCmpChangesFlags : Prop :=
  ∀ s t : State, step s = .next t → t.flags ≠ s.flags → FetchesOpcode s 0xA7

/-- R64, R56: only PUSH and CALL change memory, and only the byte at the decremented stack pointer. -/
def Obligations.OnlyPushAndCallChangeMemory : Prop :=
  ∀ (s t : State) (a : Nat), step s = .next t → t.mem.read a ≠ s.mem.read a →
    (FetchesOpcode s 0x45 ∨ FetchesOpcode s 0x50) ∧ a = (s.sp - 1).toNat

/-- R20 (who writes the general registers): a register other than 7 changes only where LDI, ADD, MUL or POP is fetched
and its byte 1 names that register; register 7 also where PUSH, POP, CALL or RET is. -/
def Obligations.RegistersChangeOnlyByTheirWriters : Prop :=
  ∀ (s t : State) (r : Reg), step s = .next t → t.x r ≠ s.x r →
    s.run = .running ∧
    (s.byteAtPc 0 ∈ [0x82, 0xA0, 0xA2, 0x46] ∧ (s.byteAtPc 1).toNat = r.val ∨
      r = 7 ∧ s.byteAtPc 0 ∈ [0x45, 0x46, 0x50, 0x11])

/-- R31: no instruction reads Less or Greater: two states that differ in nothing else step to states that differ in
nothing else. -/
def Obligations.StepIgnoresLessAndGreater : Prop :=
  ∀ (s t : State) (l g : Bool), step s = .next t →
    ∃ l' g' : Bool, step { s with flags := ⟨l, g, s.flags.equal⟩ } =
      .next { t with flags := ⟨l', g', t.flags.equal⟩ }

/-- R34, R37 (decisions D8, D18): no instruction reads the output or the fault record: with any others in their place
the step does the same to everything else and emits the same bytes. -/
def Obligations.StepIgnoresOutputAndFaultRecord : Prop :=
  ∀ (s t : State) (o : List Byte) (f : FaultRecord), step s = .next t →
    ∃ (emitted : List Byte) (f' : FaultRecord), t.out = s.out ++ emitted ∧
      step { s with out := o, fault := f } = .next { t with out := o ++ emitted, fault := f' }

/-- R24: register 7 and the stack-pointer field: a write of either is seen through both (one cell with two names in
the model, as R24's own inference allows; log entry 4), and no other register moves. -/
def Obligations.StackPointerMirrorsRegisterSeven : Prop :=
  ∀ (s : State) (v : Byte), s.sp = s.x 7 ∧ (s.setX 7 v).sp = v ∧ (s.setSp v).x 7 = v ∧
    ∀ r : Reg, r ≠ 7 → (s.setX r v).sp = s.sp ∧ (s.setSp v).x r = s.x r

/-- R8, R51, R52, R56 (the range check's place is decision D14): `MemRead` and `MemWrite` at a 9-bit address. -/
def Obligations.MemoryInterfaceContract : Prop :=
  ∀ (s : State) (addr : BitVec 9) (v : Byte),
    (addr.toNat ≤ 255 → ∃ t, s.memWrite addr v = some t ∧ t.memRead addr = some v ∧
      (∀ other : BitVec 9, other ≠ addr → t.memRead other = s.memRead other) ∧ t = { s with mem := t.mem }) ∧
    (255 < addr.toNat → s.memRead addr = none ∧ s.memWrite addr v = none)

/-! ### The instructions, each whole rule: where it completes, what it leaves unchanged, and its faults -/

/-- R131. -/
def Obligations.AddRule : Prop :=
  ∀ s : State,
    (∀ (a b : Byte) (ra rb : Reg), a.toNat = ra.val → b.toNat = rb.val →
      ∃ t, exec (.add a b) s = .next t ∧ PostAdd s ra rb t) ∧
    RuleF2RR 0xA0 PostAdd s

/-- R132. -/
def Obligations.MulRule : Prop :=
  ∀ s : State,
    (∀ (a b : Byte) (ra rb : Reg), a.toNat = ra.val → b.toNat = rb.val →
      ∃ t, exec (.mul a b) s = .next t ∧ PostMul s ra rb t) ∧
    RuleF2RR 0xA2 PostMul s

/-- R140. -/
def Obligations.LdiRule : Prop :=
  ∀ s : State,
    (∀ (b imm : Byte) (r : Reg), b.toNat = r.val → ∃ t, exec (.ldi b imm) s = .next t ∧ PostLdi s r imm t) ∧
    RuleF2RI 0x82 PostLdi s

/-- R141; that the output is a list that PRN appends to without blocking is decision D18. -/
def Obligations.PrnRule : Prop :=
  ∀ s : State,
    (∀ (b : Byte) (r : Reg), b.toNat = r.val → ∃ t, exec (.prn b) s = .next t ∧ PostPrn s r t) ∧
    RuleF1R 0x47 PostPrn s

/-- R151; that PUSH R7 stores the decremented stack pointer is decision D10. -/
def Obligations.PushRule : Prop :=
  ∀ s : State,
    (∀ (b : Byte) (r : Reg), b.toNat = r.val → ∃ t, exec (.push b) s = .next t ∧ PostPush s r t) ∧
    RuleF1R 0x45 PostPush s

/-- R152; that POP R7 ends with the byte read plus 1 is decision D10. -/
def Obligations.PopRule : Prop :=
  ∀ s : State,
    (∀ (b : Byte) (r : Reg), b.toNat = r.val → ∃ t, exec (.pop b) s = .next t ∧ PostPop s r t) ∧
    RuleF1R 0x46 PostPop s

/-- R161; the fault at address 254 is decision D9, and that CALL R7 jumps to the decremented stack pointer is decision
D10. -/
def Obligations.CallRule : Prop :=
  ∀ s : State,
    (∀ (b : Byte) (r : Reg), b.toNat = r.val →
      (s.pc.toNat ≤ 253 → ∃ t, exec (.call b) s = .next t ∧ PostCall s r t) ∧
      (s.pc = 254 → ∃ t, exec (.call b) s = .next t ∧ RaisesOutOfBounds s t .mem 256)) ∧
    RuleF1R 0x50
      (fun s r t => (s.pc.toNat ≤ 253 → PostCall s r t) ∧ (s.pc = 254 → RaisesOutOfBounds s t .mem 256)) s

/-- R162; that RET increments the stack pointer is decision D20. -/
def Obligations.RetRule : Prop :=
  ∀ s : State, (∃ t, exec .ret s = .next t ∧ PostRet s t) ∧ RuleF0 0x11 PostRet s

/-- R163. -/
def Obligations.JmpRule : Prop :=
  ∀ s : State,
    (∀ (b : Byte) (r : Reg), b.toNat = r.val → ∃ t, exec (.jmp b) s = .next t ∧ PostJmp s r t) ∧
    RuleF1R 0x54 PostJmp s

/-- R164. -/
def Obligations.JeqRule : Prop :=
  ∀ s : State,
    (∀ (b : Byte) (r : Reg), b.toNat = r.val → ∃ t, exec (.jeq b) s = .next t ∧ PostJeq s r t) ∧
    RuleF1R 0x55 PostJeq s

/-- R165. -/
def Obligations.JneRule : Prop :=
  ∀ s : State,
    (∀ (b : Byte) (r : Reg), b.toNat = r.val → ∃ t, exec (.jne b) s = .next t ∧ PostJne s r t) ∧
    RuleF1R 0x56 PostJne s

/-- R180; that the flags are cleared first is decision D3, and the sense of Less and Greater is decision D16. -/
def Obligations.CmpRule : Prop :=
  ∀ s : State,
    (∀ (a b : Byte) (ra rb : Reg), a.toNat = ra.val → b.toNat = rb.val →
      ∃ t, exec (.cmp a b) s = .next t ∧ PostCmp s ra rb t) ∧
    RuleF2RR 0xA7 PostCmp s

/-- R118; that `pc` keeps the address of the HALT byte is decision D6. -/
def Obligations.HaltRule : Prop :=
  ∀ s : State, (∃ t, exec .halt s = .next t ∧ PostHalt s t) ∧ RuleF0 0x01 PostHalt s

/-! ### Instructions in sequence -/

/-- R152, its round trip (an inference the spec marks as derived): PUSH then POP, of registers other than 7, moves the value
and restores the stack pointer, for every stack pointer. -/
def Obligations.PushThenPopRoundTrips : Prop :=
  ∀ (s : State) (b c : Byte) (r q : Reg), b.toNat = r.val → c.toNat = q.val → r ≠ 7 → q ≠ 7 →
    ∃ t u, exec (.push b) s = .next t ∧ exec (.pop c) t = .next u ∧ u.x q = s.x r ∧ u.sp = s.sp ∧
      ∀ p : Reg, p ≠ q → u.x p = s.x p

/-- R161, R162 (decision D20; D10 for CALL R7): a RET right after a CALL resumes at the byte after CALL's operand with the
stack pointer restored. -/
def Obligations.CallThenRetResumesAfterTheCall : Prop :=
  ∀ (s : State) (b : Byte) (r : Reg), b.toNat = r.val → s.pc.toNat ≤ 253 →
    ∃ t u, exec (.call b) s = .next t ∧ exec .ret t = .next u ∧ u.pc.toNat = s.pc.toNat + 2 ∧
      ∀ p : Reg, u.x p = s.x p

/-- R165, R181: JEQ and JNE on the same state are exact complements: one goes to the register's address and the other
to the next instruction. -/
def Obligations.JeqAndJneAreComplements : Prop :=
  ∀ (s : State) (b : Byte) (r : Reg), b.toNat = r.val →
    ∃ t u, exec (.jeq b) s = .next t ∧ exec (.jne b) s = .next u ∧
      (t.pc.toNat = (s.x r).toNat ∧ u.pc = s.pc + 2 ∨ t.pc = s.pc + 2 ∧ u.pc.toNat = (s.x r).toNat)

/-- R63 (decision D13; D10 for PUSH R7, which stores the decremented stack pointer): the byte that PUSH stores where the
next instruction stands is the opcode the machine's next step fetches and dispatches on: an unknown byte is handled as
one, an opcode whose operand bytes are there is executed with them, and one whose operand bytes are not faults. -/
def Obligations.NextFetchSeesThePushedByte : Prop :=
  ∀ (s : State) (b : Byte) (r : Reg), s.run = .running → b.toNat = r.val → s.pc.toNat ≤ 253 →
    (s.sp - 1).toNat = s.pc.toNat + 2 →
    ∃ (t : State) (v : Byte), exec (.push b) s = .next t ∧ v = (if r = 7 then s.sp - 1 else s.x r) ∧
      t.byteAtPc 0 = v ∧ t.pc.toNat = s.pc.toNat + 2 ∧
      (v ∉ knownOpcodes → fetch t = .unknown v ∧ step t = unknownOpcode v t) ∧
      (∀ (i : Instr) (rest : List Byte), decode (v :: t.bytesFrom (t.pc.toNat + 1)) = .ok (i, rest) →
        fetch t = .instr i ∧ step t = exec i t) ∧
      (v ∈ knownOpcodes → (∀ (i : Instr) (rest : List Byte), decode (v :: t.bytesFrom (t.pc.toNat + 1)) ≠ .ok (i, rest)) →
        ∃ u : State, step t = .next u ∧ RaisesOutOfBounds t u .mem 256 ∧ u.fault.opcode = v)

/-! ### What the trace hook and the host are shown -/

/-- R121, R111 (decision D14): the hook is called in RUNNING only and is shown `pc`, the three bytes from it on, those
above address 255 absent, and the eight registers. -/
def Obligations.TraceHookIsShownTheFetch : Prop :=
  ∀ s : State, (s.run ≠ .running → traceView s = none) ∧
    (s.run = .running → ∃ v, traceView s = some v ∧ v.pc = s.pc ∧
      (∀ k : Fin 3, v.bytes[k.val]? =
        some (if s.pc.toNat + k.val ≤ 255 then some (s.byteAtPc k.val) else none)) ∧
      (∀ r : Reg, v.regs[r.val]? = some (s.x r)) ∧ v.regs.length = 8)
end

