-- ==== Sys2Proof/Laws/Decode.lean ====
section
/-! SUPPORT. What the opcode map answers, and what decoding an instruction's own bytes rests on. -/

namespace Sys2Proof

/-- What a shape of opcode `b0` makes: instructions of that opcode whose operands are the bytes given, in their order
(R81, R93). -/
def Shape.Makes (b0 : Byte) : Shape → Prop
  | .f0 i => i.opcode = b0 ∧ i.operands = []
  | .f1 mk => ∀ b1, (mk b1).opcode = b0 ∧ (mk b1).operands = [b1]
  | .f2 mk => ∀ b1 b2, (mk b1 b2).opcode = b0 ∧ (mk b1 b2).operands = [b1, b2]

/-- The format whose opcodes a shape stands for (R81). -/
def Shape.opcodes : Shape → List Byte
  | .f0 _ => Machine.opcodesF0
  | .f1 _ => Machine.opcodesF1R
  | .f2 _ => Machine.opcodesF2RI ++ Machine.opcodesF2RR

/-- Everything the opcode map answers (R85): the shape makes instructions of the byte looked up, and the byte is an
opcode of the shape's format. -/
theorem lookup_spec {b0 : Byte} {sh : Shape} (h : lookup b0 = some sh) : sh.Makes b0 ∧ b0 ∈ sh.opcodes := by
  unfold lookup at h
  split at h <;> cases h <;>
    exact ⟨by simp [Shape.Makes, Instr.opcode, Instr.operands], by simp only [Shape.opcodes]; decide⟩

/-- A shape's opcodes are among the 13. -/
theorem Shape.opcodes_known (sh : Shape) {b0 : Byte} (h : b0 ∈ sh.opcodes) : b0 ∈ Machine.knownOpcodes := by
  cases sh <;> simp only [Shape.opcodes, Machine.knownOpcodes, List.mem_append] at h ⊢ <;> tauto

/-- A byte has no shape exactly when it is none of the 13 opcodes (R85, R87). -/
theorem lookup_eq_none_iff (b0 : Byte) : lookup b0 = none ↔ b0 ∉ Machine.knownOpcodes := by
  constructor
  · intro h hm
    have known : ∀ b ∈ Machine.knownOpcodes, (lookup b).isSome = true := by decide
    simpa [h] using known b0 hm
  · intro h
    cases hl : lookup b0 with
    | none => rfl
    | some sh => exact absurd (sh.opcodes_known (lookup_spec hl).2) h

/-- An opcode of format F1R makes an instruction of one operand byte. -/
theorem lookup_of_f1r {b0 : Byte} (h : b0 ∈ Machine.opcodesF1R) : ∃ mk, lookup b0 = some (.f1 mk) := by
  simp only [Machine.opcodesF1R, List.mem_cons, List.not_mem_nil, or_false] at h
  rcases h with rfl | rfl | rfl | rfl | rfl | rfl | rfl <;> exact ⟨_, rfl⟩

/-- An opcode of format F2RI or F2RR makes an instruction of two operand bytes. -/
theorem lookup_of_f2 {b0 : Byte} (h : b0 ∈ Machine.opcodesF2RI ++ Machine.opcodesF2RR) :
    ∃ mk, lookup b0 = some (.f2 mk) := by
  simp only [Machine.opcodesF2RI, Machine.opcodesF2RR, List.cons_append, List.nil_append, List.mem_cons,
    List.not_mem_nil, or_false] at h
  rcases h with rfl | rfl | rfl | rfl <;> exact ⟨_, rfl⟩

/-- Every opcode of an instruction is one of the 13. -/
theorem Instr.opcode_known (i : Instr) : i.opcode ∈ Machine.knownOpcodes := by
  cases i <;> simp [Instr.opcode, Machine.knownOpcodes, Machine.opcodesF0, Machine.opcodesF1R,
    Machine.opcodesF2RI, Machine.opcodesF2RR]

end Sys2Proof
end

