-- ==== Sys2Proof/Laws/State.lean ====
section
/-! SUPPORT. One lemma per field per update of the state, all true by `rfl`, and the read-after-write laws of the
registers; no later proof unfolds a record update. -/

namespace Sys2Proof.Machine

/-! ### `setX` -/

@[simp] theorem State.setX_regs (s : State) (r : Reg) (v : Byte) : (s.setX r v).regs = s.regs.set r v := rfl
@[simp] theorem State.setX_pc (s : State) (r : Reg) (v : Byte) : (s.setX r v).pc = s.pc := rfl
@[simp] theorem State.setX_flags (s : State) (r : Reg) (v : Byte) : (s.setX r v).flags = s.flags := rfl
@[simp] theorem State.setX_mem (s : State) (r : Reg) (v : Byte) : (s.setX r v).mem = s.mem := rfl
@[simp] theorem State.setX_run (s : State) (r : Reg) (v : Byte) : (s.setX r v).run = s.run := rfl
@[simp] theorem State.setX_fault (s : State) (r : Reg) (v : Byte) : (s.setX r v).fault = s.fault := rfl
@[simp] theorem State.setX_out (s : State) (r : Reg) (v : Byte) : (s.setX r v).out = s.out := rfl
@[simp] theorem State.setX_strictDecode (s : State) (r : Reg) (v : Byte) : (s.setX r v).strictDecode = s.strictDecode := rfl

/-! ### `setSp` -/

@[simp] theorem State.setSp_regs (s : State) (v : Byte) : (s.setSp v).regs = s.regs.set 7 v := rfl
@[simp] theorem State.setSp_pc (s : State) (v : Byte) : (s.setSp v).pc = s.pc := rfl
@[simp] theorem State.setSp_flags (s : State) (v : Byte) : (s.setSp v).flags = s.flags := rfl
@[simp] theorem State.setSp_mem (s : State) (v : Byte) : (s.setSp v).mem = s.mem := rfl
@[simp] theorem State.setSp_run (s : State) (v : Byte) : (s.setSp v).run = s.run := rfl
@[simp] theorem State.setSp_fault (s : State) (v : Byte) : (s.setSp v).fault = s.fault := rfl
@[simp] theorem State.setSp_out (s : State) (v : Byte) : (s.setSp v).out = s.out := rfl
@[simp] theorem State.setSp_strictDecode (s : State) (v : Byte) : (s.setSp v).strictDecode = s.strictDecode := rfl

/-! ### `decSp` -/

@[simp] theorem State.decSp_regs (s : State) : s.decSp.regs = s.regs.set 7 (s.sp - 1) := rfl
@[simp] theorem State.decSp_pc (s : State) : s.decSp.pc = s.pc := rfl
@[simp] theorem State.decSp_flags (s : State) : s.decSp.flags = s.flags := rfl
@[simp] theorem State.decSp_mem (s : State) : s.decSp.mem = s.mem := rfl
@[simp] theorem State.decSp_run (s : State) : s.decSp.run = s.run := rfl
@[simp] theorem State.decSp_fault (s : State) : s.decSp.fault = s.fault := rfl
@[simp] theorem State.decSp_out (s : State) : s.decSp.out = s.out := rfl
@[simp] theorem State.decSp_strictDecode (s : State) : s.decSp.strictDecode = s.strictDecode := rfl

/-! ### `incSp` -/

@[simp] theorem State.incSp_regs (s : State) : s.incSp.regs = s.regs.set 7 (s.sp + 1) := rfl
@[simp] theorem State.incSp_pc (s : State) : s.incSp.pc = s.pc := rfl
@[simp] theorem State.incSp_flags (s : State) : s.incSp.flags = s.flags := rfl
@[simp] theorem State.incSp_mem (s : State) : s.incSp.mem = s.mem := rfl
@[simp] theorem State.incSp_run (s : State) : s.incSp.run = s.run := rfl
@[simp] theorem State.incSp_fault (s : State) : s.incSp.fault = s.fault := rfl
@[simp] theorem State.incSp_out (s : State) : s.incSp.out = s.out := rfl
@[simp] theorem State.incSp_strictDecode (s : State) : s.incSp.strictDecode = s.strictDecode := rfl

/-! ### `setPc` -/

@[simp] theorem State.setPc_regs (s : State) (p : Pc) : (s.setPc p).regs = s.regs := rfl
@[simp] theorem State.setPc_pc (s : State) (p : Pc) : (s.setPc p).pc = p := rfl
@[simp] theorem State.setPc_flags (s : State) (p : Pc) : (s.setPc p).flags = s.flags := rfl
@[simp] theorem State.setPc_mem (s : State) (p : Pc) : (s.setPc p).mem = s.mem := rfl
@[simp] theorem State.setPc_run (s : State) (p : Pc) : (s.setPc p).run = s.run := rfl
@[simp] theorem State.setPc_fault (s : State) (p : Pc) : (s.setPc p).fault = s.fault := rfl
@[simp] theorem State.setPc_out (s : State) (p : Pc) : (s.setPc p).out = s.out := rfl
@[simp] theorem State.setPc_strictDecode (s : State) (p : Pc) : (s.setPc p).strictDecode = s.strictDecode := rfl

/-! ### `advance` -/

@[simp] theorem State.advance_regs (s : State) (n : Nat) : (s.advance n).regs = s.regs := rfl
@[simp] theorem State.advance_pc (s : State) (n : Nat) : (s.advance n).pc = s.pc + BitVec.ofNat 9 n := rfl
@[simp] theorem State.advance_flags (s : State) (n : Nat) : (s.advance n).flags = s.flags := rfl
@[simp] theorem State.advance_mem (s : State) (n : Nat) : (s.advance n).mem = s.mem := rfl
@[simp] theorem State.advance_run (s : State) (n : Nat) : (s.advance n).run = s.run := rfl
@[simp] theorem State.advance_fault (s : State) (n : Nat) : (s.advance n).fault = s.fault := rfl
@[simp] theorem State.advance_out (s : State) (n : Nat) : (s.advance n).out = s.out := rfl
@[simp] theorem State.advance_strictDecode (s : State) (n : Nat) : (s.advance n).strictDecode = s.strictDecode := rfl

/-! ### `jumpTo` -/

@[simp] theorem State.jumpTo_regs (s : State) (b : Byte) : (s.jumpTo b).regs = s.regs := rfl
@[simp] theorem State.jumpTo_pc (s : State) (b : Byte) : (s.jumpTo b).pc = zext9 b := rfl
@[simp] theorem State.jumpTo_flags (s : State) (b : Byte) : (s.jumpTo b).flags = s.flags := rfl
@[simp] theorem State.jumpTo_mem (s : State) (b : Byte) : (s.jumpTo b).mem = s.mem := rfl
@[simp] theorem State.jumpTo_run (s : State) (b : Byte) : (s.jumpTo b).run = s.run := rfl
@[simp] theorem State.jumpTo_fault (s : State) (b : Byte) : (s.jumpTo b).fault = s.fault := rfl
@[simp] theorem State.jumpTo_out (s : State) (b : Byte) : (s.jumpTo b).out = s.out := rfl
@[simp] theorem State.jumpTo_strictDecode (s : State) (b : Byte) : (s.jumpTo b).strictDecode = s.strictDecode := rfl

/-! ### `setFlags` -/

@[simp] theorem State.setFlags_regs (s : State) (f : Flags) : (s.setFlags f).regs = s.regs := rfl
@[simp] theorem State.setFlags_pc (s : State) (f : Flags) : (s.setFlags f).pc = s.pc := rfl
@[simp] theorem State.setFlags_flags (s : State) (f : Flags) : (s.setFlags f).flags = f := rfl
@[simp] theorem State.setFlags_mem (s : State) (f : Flags) : (s.setFlags f).mem = s.mem := rfl
@[simp] theorem State.setFlags_run (s : State) (f : Flags) : (s.setFlags f).run = s.run := rfl
@[simp] theorem State.setFlags_fault (s : State) (f : Flags) : (s.setFlags f).fault = s.fault := rfl
@[simp] theorem State.setFlags_out (s : State) (f : Flags) : (s.setFlags f).out = s.out := rfl
@[simp] theorem State.setFlags_strictDecode (s : State) (f : Flags) : (s.setFlags f).strictDecode = s.strictDecode := rfl

/-! ### `writeByte` -/

@[simp] theorem State.writeByte_regs (s : State) (a v : Byte) : (s.writeByte a v).regs = s.regs := rfl
@[simp] theorem State.writeByte_pc (s : State) (a v : Byte) : (s.writeByte a v).pc = s.pc := rfl
@[simp] theorem State.writeByte_flags (s : State) (a v : Byte) : (s.writeByte a v).flags = s.flags := rfl
@[simp] theorem State.writeByte_mem (s : State) (a v : Byte) : (s.writeByte a v).mem = s.mem.write a.toNat v := rfl
@[simp] theorem State.writeByte_run (s : State) (a v : Byte) : (s.writeByte a v).run = s.run := rfl
@[simp] theorem State.writeByte_fault (s : State) (a v : Byte) : (s.writeByte a v).fault = s.fault := rfl
@[simp] theorem State.writeByte_out (s : State) (a v : Byte) : (s.writeByte a v).out = s.out := rfl
@[simp] theorem State.writeByte_strictDecode (s : State) (a v : Byte) : (s.writeByte a v).strictDecode = s.strictDecode := rfl

/-! ### `emit` -/

@[simp] theorem State.emit_regs (s : State) (v : Byte) : (s.emit v).regs = s.regs := rfl
@[simp] theorem State.emit_pc (s : State) (v : Byte) : (s.emit v).pc = s.pc := rfl
@[simp] theorem State.emit_flags (s : State) (v : Byte) : (s.emit v).flags = s.flags := rfl
@[simp] theorem State.emit_mem (s : State) (v : Byte) : (s.emit v).mem = s.mem := rfl
@[simp] theorem State.emit_run (s : State) (v : Byte) : (s.emit v).run = s.run := rfl
@[simp] theorem State.emit_fault (s : State) (v : Byte) : (s.emit v).fault = s.fault := rfl
@[simp] theorem State.emit_out (s : State) (v : Byte) : (s.emit v).out = s.out ++ [v] := rfl
@[simp] theorem State.emit_strictDecode (s : State) (v : Byte) : (s.emit v).strictDecode = s.strictDecode := rfl

/-! ### `halt` -/

@[simp] theorem State.halt_regs (s : State) : s.halt.regs = s.regs := rfl
@[simp] theorem State.halt_pc (s : State) : s.halt.pc = s.pc := rfl
@[simp] theorem State.halt_flags (s : State) : s.halt.flags = s.flags := rfl
@[simp] theorem State.halt_mem (s : State) : s.halt.mem = s.mem := rfl
@[simp] theorem State.halt_run (s : State) : s.halt.run = .halted := rfl
@[simp] theorem State.halt_fault (s : State) : s.halt.fault = s.fault := rfl
@[simp] theorem State.halt_out (s : State) : s.halt.out = s.out := rfl
@[simp] theorem State.halt_strictDecode (s : State) : s.halt.strictDecode = s.strictDecode := rfl

/-! ### `raise` -/

@[simp] theorem State.raise_regs (s : State) (k : FaultKind) (sp : FaultSpace) (i : BitVec 9) (o : Option Byte) : (s.raise k sp i o).regs = s.regs := rfl
@[simp] theorem State.raise_pc (s : State) (k : FaultKind) (sp : FaultSpace) (i : BitVec 9) (o : Option Byte) : (s.raise k sp i o).pc = s.pc := rfl
@[simp] theorem State.raise_flags (s : State) (k : FaultKind) (sp : FaultSpace) (i : BitVec 9) (o : Option Byte) : (s.raise k sp i o).flags = s.flags := rfl
@[simp] theorem State.raise_mem (s : State) (k : FaultKind) (sp : FaultSpace) (i : BitVec 9) (o : Option Byte) : (s.raise k sp i o).mem = s.mem := rfl
@[simp] theorem State.raise_run (s : State) (k : FaultKind) (sp : FaultSpace) (i : BitVec 9) (o : Option Byte) : (s.raise k sp i o).run = .faulted := rfl
@[simp] theorem State.raise_fault (s : State) (k : FaultKind) (sp : FaultSpace) (i : BitVec 9) (o : Option Byte) : (s.raise k sp i o).fault = ⟨k, s.pc, o.isSome, o.getD 0, sp, i⟩ := rfl
@[simp] theorem State.raise_out (s : State) (k : FaultKind) (sp : FaultSpace) (i : BitVec 9) (o : Option Byte) : (s.raise k sp i o).out = s.out := rfl
@[simp] theorem State.raise_strictDecode (s : State) (k : FaultKind) (sp : FaultSpace) (i : BitVec 9) (o : Option Byte) : (s.raise k sp i o).strictDecode = s.strictDecode := rfl

/-! ### Registers as `x` and `sp` read them -/

theorem State.x_congr {s t : State} (h : t.regs = s.regs) (r : Reg) : t.x r = s.x r := by
  simp only [State.x, h]

@[simp] theorem State.x_setX_self (s : State) (r : Reg) (v : Byte) : (s.setX r v).x r = v := by
  simp [State.x]

theorem State.x_setX (s : State) (r q : Reg) (v : Byte) : (s.setX r v).x q = if q = r then v else s.x q := by
  by_cases h : q = r
  · subst h; simp
  · have hv : r.val ≠ q.val := fun e => h (Fin.ext e.symm)
    simp [State.x, h, hv]

@[simp] theorem State.sp_setX_sp (s : State) (v : Byte) : (s.setX 7 v).sp = v :=
  State.x_setX_self s 7 v

@[simp] theorem State.sp_setSp (s : State) (v : Byte) : (s.setSp v).sp = v := State.x_setX_self s 7 v

@[simp] theorem State.sp_decSp (s : State) : s.decSp.sp = s.sp - 1 := State.sp_setSp s _

@[simp] theorem State.sp_incSp (s : State) : s.incSp.sp = s.sp + 1 := State.sp_setSp s _

theorem State.x_setSp (s : State) (q : Reg) (v : Byte) :
    (s.setSp v).x q = if q = 7 then v else s.x q := State.x_setX s 7 q v

theorem State.x_decSp (s : State) (q : Reg) : s.decSp.x q = if q = 7 then s.sp - 1 else s.x q :=
  State.x_setSp s q _

theorem State.x_incSp (s : State) (q : Reg) : s.incSp.x q = if q = 7 then s.sp + 1 else s.x q :=
  State.x_setSp s q _

@[simp] theorem State.x_setPc (s : State) (p : Pc) (q : Reg) : (s.setPc p).x q = s.x q := rfl
@[simp] theorem State.sp_setPc (s : State) (p : Pc) : (s.setPc p).sp = s.sp := rfl
@[simp] theorem State.x_advance (s : State) (n : Nat) (q : Reg) : (s.advance n).x q = s.x q := rfl
@[simp] theorem State.sp_advance (s : State) (n : Nat) : (s.advance n).sp = s.sp := rfl
@[simp] theorem State.x_jumpTo (s : State) (b : Byte) (q : Reg) : (s.jumpTo b).x q = s.x q := rfl
@[simp] theorem State.sp_jumpTo (s : State) (b : Byte) : (s.jumpTo b).sp = s.sp := rfl
@[simp] theorem State.x_setFlags (s : State) (f : Flags) (q : Reg) : (s.setFlags f).x q = s.x q := rfl
@[simp] theorem State.sp_setFlags (s : State) (f : Flags) : (s.setFlags f).sp = s.sp := rfl
@[simp] theorem State.x_writeByte (s : State) (a v : Byte) (q : Reg) : (s.writeByte a v).x q = s.x q := rfl
@[simp] theorem State.sp_writeByte (s : State) (a v : Byte) : (s.writeByte a v).sp = s.sp := rfl
@[simp] theorem State.x_emit (s : State) (v : Byte) (q : Reg) : (s.emit v).x q = s.x q := rfl
@[simp] theorem State.sp_emit (s : State) (v : Byte) : (s.emit v).sp = s.sp := rfl
@[simp] theorem State.x_halt (s : State) (q : Reg) : s.halt.x q = s.x q := rfl
@[simp] theorem State.sp_halt (s : State) : s.halt.sp = s.sp := rfl
@[simp] theorem State.x_raise (s : State) (k : FaultKind) (sp : FaultSpace) (i : BitVec 9) (o : Option Byte) (q : Reg) : (s.raise k sp i o).x q = s.x q := rfl
@[simp] theorem State.sp_raise (s : State) (k : FaultKind) (sp : FaultSpace) (i : BitVec 9) (o : Option Byte) : (s.raise k sp i o).sp = s.sp := rfl

end Sys2Proof.Machine
end

