-- ==== Sys2Proof/Laws/Operands.lean ====
section
/-! SUPPORT. One lemma per operand form: everything validation can do. -/

namespace Sys2Proof.Machine

theorem regIdx_of_le {b : Byte} (h : b.toNat ≤ 7) : regIdx b = some ⟨b.toNat, by omega⟩ := by
  simp [regIdx, Nat.lt_succ_of_le h]

theorem regIdx_of_val {b : Byte} {r : Reg} (h : b.toNat = r.val) : regIdx b = some r := by
  have hr := r.isLt
  rw [regIdx_of_le (by omega)]
  exact congrArg some (Fin.ext h)

theorem regIdx_of_gt {b : Byte} (h : 7 < b.toNat) : regIdx b = none := by
  simp [regIdx]; omega

theorem regIdx_eq_some {b : Byte} {r : Reg} : regIdx b = some r ↔ b.toNat = r.val := by
  constructor
  · intro h
    simp only [regIdx] at h
    split at h
    · cases h; rfl
    · cases h
  · exact regIdx_of_val

/-- The operand byte made for a register names that register. -/
@[simp] theorem toNat_regByte (r : Reg) : (regByte r).toNat = r.val := by
  have := r.isLt
  simp [regByte]; omega

@[simp] theorem regIdx_regByte (r : Reg) : regIdx (regByte r) = some r := regIdx_of_val (toNat_regByte r)

theorem withReg_of_val {opcode b : Byte} {r : Reg} (h : b.toNat = r.val) (s : State) (k : Reg → Result) :
    withReg opcode b s k = k r := by
  simp [withReg, regIdx_of_val h]

theorem withReg_of_gt {opcode b : Byte} (h : 7 < b.toNat) (s : State) (k : Reg → Result) :
    withReg opcode b s k = .next (s.raise .outOfBounds .reg (zext9 b) (some opcode)) := by
  simp [withReg, regIdx_of_gt h]

/-- Everything a register operand can do. -/
theorem withReg_cases {opcode b : Byte} {s t : State} {k : Reg → Result} (h : withReg opcode b s k = .next t) :
    (∃ r : Reg, b.toNat = r.val ∧ k r = .next t) ∨
    (7 < b.toNat ∧ t = s.raise .outOfBounds .reg (zext9 b) (some opcode)) := by
  by_cases hb : b.toNat ≤ 7
  · exact .inl ⟨⟨b.toNat, by omega⟩, rfl, by rwa [withReg_of_val (r := ⟨b.toNat, by omega⟩) rfl] at h⟩
  · refine .inr ⟨by omega, ?_⟩
    rw [withReg_of_gt (by omega)] at h
    injection h with h
    exact h.symm

theorem withRegs_of_val {opcode a b : Byte} {ra rb : Reg} (ha : a.toNat = ra.val) (hb : b.toNat = rb.val)
    (s : State) (k : Reg → Reg → Result) : withRegs opcode a b s k = k ra rb := by
  simp [withRegs, withReg_of_val ha, withReg_of_val hb]

/-- Everything a pair of register operands can do, byte 1 before byte 2. -/
theorem withRegs_cases {opcode a b : Byte} {s t : State} {k : Reg → Reg → Result}
    (h : withRegs opcode a b s k = .next t) :
    (∃ ra rb : Reg, a.toNat = ra.val ∧ b.toNat = rb.val ∧ k ra rb = .next t) ∨
    (7 < a.toNat ∧ t = s.raise .outOfBounds .reg (zext9 a) (some opcode)) ∨
    (a.toNat ≤ 7 ∧ 7 < b.toNat ∧ t = s.raise .outOfBounds .reg (zext9 b) (some opcode)) := by
  obtain ⟨ra, ha, h⟩ | h := withReg_cases h
  · obtain ⟨rb, hb, h⟩ | h := withReg_cases h
    · exact .inl ⟨ra, rb, ha, hb, h⟩
    · exact .inr (.inr ⟨by have := ra.isLt; omega, h⟩)
  · exact .inr (.inl h)

end Sys2Proof.Machine
end

