-- ==== Sys2Proof/Laws/Effects.lean ====
section
/-! SUPPORT. What each instruction does on valid operands, as one equation each, and everything `exec` and `step` can
do, said once. -/

namespace Sys2Proof.Machine

theorem aluInto_add (opcode : Byte) (ra rb : Reg) (s : State) :
    aluInto .add opcode ra rb s =
      .next ((s.setX ra (narrow ((s.x ra).toNat + (s.x rb).toNat))).advance 3) := rfl

theorem aluInto_mul (opcode : Byte) (ra rb : Reg) (s : State) :
    aluInto .mul opcode ra rb s =
      .next ((s.setX ra (narrow ((s.x ra).toNat * (s.x rb).toNat))).advance 3) := rfl

section
variable {b c : Byte} {r q : Reg} (s : State)

theorem execHalt_eq : exec .halt s = .next s.halt := rfl

theorem execRet_eq : exec .ret s = .next (s.incSp.jumpTo (s.readByte s.sp)) := rfl

theorem execPush_eq (h : b.toNat = r.val) :
    exec (.push b) s = .next ((s.decSp.writeByte s.decSp.sp (s.decSp.x r)).advance 2) :=
  withReg_of_val h s _

theorem execPop_eq (h : b.toNat = r.val) :
    exec (.pop b) s = .next ((s.setX r (s.readByte s.sp)).incSp.advance 2) := withReg_of_val h s _

theorem execPrn_eq (h : b.toNat = r.val) : exec (.prn b) s = .next ((s.emit (s.x r)).advance 2) :=
  withReg_of_val h s _

theorem execCall_eq (h : b.toNat = r.val) :
    exec (.call b) s =
      if s.pc.toNat + 2 > 255 then
        .next (s.raise .outOfBounds .mem (BitVec.ofNat 9 (s.pc.toNat + 2)) (some 0x50))
      else
        .next ((s.decSp.writeByte s.decSp.sp (narrow (s.pc.toNat + 2))).jumpTo (s.decSp.x r)) :=
  withReg_of_val h s _

theorem execJmp_eq (h : b.toNat = r.val) : exec (.jmp b) s = .next (s.jumpTo (s.x r)) := withReg_of_val h s _

theorem execJeq_eq (h : b.toNat = r.val) :
    exec (.jeq b) s = .next (if s.flags.equal then s.jumpTo (s.x r) else s.advance 2) := withReg_of_val h s _

theorem execJne_eq (h : b.toNat = r.val) :
    exec (.jne b) s = .next (if !s.flags.equal then s.jumpTo (s.x r) else s.advance 2) := withReg_of_val h s _

theorem execLdi_eq (h : b.toNat = r.val) : exec (.ldi b c) s = .next ((s.setX r c).advance 3) :=
  withReg_of_val h s _

theorem execAdd_eq (hb : b.toNat = r.val) (hc : c.toNat = q.val) :
    exec (.add b c) s = .next ((s.setX r (narrow ((s.x r).toNat + (s.x q).toNat))).advance 3) :=
  withRegs_of_val hb hc s _

theorem execMul_eq (hb : b.toNat = r.val) (hc : c.toNat = q.val) :
    exec (.mul b c) s = .next ((s.setX r (narrow ((s.x r).toNat * (s.x q).toNat))).advance 3) :=
  withRegs_of_val hb hc s _

theorem execCmp_eq (hb : b.toNat = r.val) (hc : c.toNat = q.val) :
    exec (.cmp b c) s = .next ((s.setFlags (compareFlags (s.x r) (s.x q))).advance 3) :=
  withRegs_of_val hb hc s _

end

/-- Everything an instruction can do: raise `OutOfBounds`, or have its own effect. -/
inductive Effect (s : State) : Instr → State → Prop where
  | badFirst (i : Instr) (b : Byte) (l : List Byte) (hi : i.operands = b :: l) (hb : 7 < b.toNat) :
      Effect s i (s.raise .outOfBounds .reg (zext9 b) (some i.opcode))
  | badSecond (i : Instr) (a b : Byte) (hi : i.operands = [a, b]) (hr : i.opcode ∈ opcodesF2RR) (ha : a.toNat ≤ 7)
      (hb : 7 < b.toNat) : Effect s i (s.raise .outOfBounds .reg (zext9 b) (some i.opcode))
  | halt : Effect s .halt s.halt
  | ret : Effect s .ret (s.incSp.jumpTo (s.readByte s.sp))
  | push (b : Byte) (r : Reg) (h : b.toNat = r.val) :
      Effect s (.push b) ((s.decSp.writeByte s.decSp.sp (s.decSp.x r)).advance 2)
  | pop (b : Byte) (r : Reg) (h : b.toNat = r.val) :
      Effect s (.pop b) ((s.setX r (s.readByte s.sp)).incSp.advance 2)
  | prn (b : Byte) (r : Reg) (h : b.toNat = r.val) : Effect s (.prn b) ((s.emit (s.x r)).advance 2)
  | callFault (b : Byte) (r : Reg) (h : b.toNat = r.val) (hp : s.pc.toNat + 2 > 255) :
      Effect s (.call b) (s.raise .outOfBounds .mem (BitVec.ofNat 9 (s.pc.toNat + 2)) (some 0x50))
  | call (b : Byte) (r : Reg) (h : b.toNat = r.val) (hp : s.pc.toNat + 2 ≤ 255) :
      Effect s (.call b) ((s.decSp.writeByte s.decSp.sp (narrow (s.pc.toNat + 2))).jumpTo (s.decSp.x r))
  | jmp (b : Byte) (r : Reg) (h : b.toNat = r.val) : Effect s (.jmp b) (s.jumpTo (s.x r))
  | jeq (b : Byte) (r : Reg) (h : b.toNat = r.val) :
      Effect s (.jeq b) (if s.flags.equal then s.jumpTo (s.x r) else s.advance 2)
  | jne (b : Byte) (r : Reg) (h : b.toNat = r.val) :
      Effect s (.jne b) (if !s.flags.equal then s.jumpTo (s.x r) else s.advance 2)
  | ldi (b c : Byte) (r : Reg) (h : b.toNat = r.val) : Effect s (.ldi b c) ((s.setX r c).advance 3)
  | add (b c : Byte) (r q : Reg) (hb : b.toNat = r.val) (hc : c.toNat = q.val) :
      Effect s (.add b c) ((s.setX r (narrow ((s.x r).toNat + (s.x q).toNat))).advance 3)
  | mul (b c : Byte) (r q : Reg) (hb : b.toNat = r.val) (hc : c.toNat = q.val) :
      Effect s (.mul b c) ((s.setX r (narrow ((s.x r).toNat * (s.x q).toNat))).advance 3)
  | cmp (b c : Byte) (r q : Reg) (hb : b.toNat = r.val) (hc : c.toNat = q.val) :
      Effect s (.cmp b c) ((s.setFlags (compareFlags (s.x r) (s.x q))).advance 3)

/-- Whatever `exec` answers is a next state with the instruction's effect. -/
theorem exec_effect (i : Instr) (s : State) : ∃ t, exec i s = .next t ∧ Effect s i t := by
  have one : ∀ (i : Instr) (b : Byte) (l : List Byte) (k : Reg → Result), i.operands = b :: l →
      exec i s = withReg i.opcode b s k →
      (∀ r : Reg, b.toNat = r.val → ∃ t, k r = .next t ∧ Effect s i t) → ∃ t, exec i s = .next t ∧ Effect s i t := by
    intro i b l k hi he hk
    by_cases hb : b.toNat ≤ 7
    · rw [he, withReg_of_val (r := ⟨b.toNat, by omega⟩) rfl]
      exact hk ⟨b.toNat, by omega⟩ rfl
    · rw [he, withReg_of_gt (by omega)]
      exact ⟨_, rfl, .badFirst i b l hi (by omega)⟩
  have two : ∀ (i : Instr) (a b : Byte) (k : Reg → Reg → Result), i.operands = [a, b] → i.opcode ∈ opcodesF2RR →
      exec i s = withRegs i.opcode a b s k →
      (∀ r q : Reg, a.toNat = r.val → b.toNat = q.val → ∃ t, k r q = .next t ∧ Effect s i t) →
      ∃ t, exec i s = .next t ∧ Effect s i t := by
    intro i a b k hi ho he hk
    refine one i a _ _ hi he fun r hr => ?_
    by_cases hb : b.toNat ≤ 7
    · simp only [withReg_of_val (r := ⟨b.toNat, by omega⟩) rfl]
      exact hk r ⟨b.toNat, by omega⟩ hr rfl
    · simp only [withReg_of_gt (Nat.lt_of_not_le hb)]
      exact ⟨_, rfl, .badSecond i a b hi ho (by have := r.isLt; omega) (by omega)⟩
  cases i with
  | halt => exact ⟨_, rfl, .halt⟩
  | ret => exact ⟨_, rfl, .ret⟩
  | push b => exact one (.push b) b [] _ rfl rfl fun r h => ⟨_, rfl, .push b r h⟩
  | pop b => exact one (.pop b) b [] _ rfl rfl fun r h => ⟨_, rfl, .pop b r h⟩
  | prn b => exact one (.prn b) b [] _ rfl rfl fun r h => ⟨_, rfl, .prn b r h⟩
  | call b =>
    refine one (.call b) b [] _ rfl rfl fun r h => ?_
    by_cases hp : s.pc.toNat + 2 > 255
    · exact ⟨_, if_pos hp, .callFault b r h hp⟩
    · exact ⟨_, if_neg hp, .call b r h (by omega)⟩
  | jmp b => exact one (.jmp b) b [] _ rfl rfl fun r h => ⟨_, rfl, .jmp b r h⟩
  | jeq b => exact one (.jeq b) b [] _ rfl rfl fun r h => ⟨_, rfl, .jeq b r h⟩
  | jne b => exact one (.jne b) b [] _ rfl rfl fun r h => ⟨_, rfl, .jne b r h⟩
  | ldi b c => exact one (.ldi b c) b [c] _ rfl rfl fun r h => ⟨_, rfl, .ldi b c r h⟩
  | add b c => exact two (.add b c) b c _ rfl (by simp [Instr.opcode, opcodesF2RR]) rfl fun r q h h' => ⟨_, rfl, .add b c r q h h'⟩
  | mul b c => exact two (.mul b c) b c _ rfl (by simp [Instr.opcode, opcodesF2RR]) rfl fun r q h h' => ⟨_, rfl, .mul b c r q h h'⟩
  | cmp b c => exact two (.cmp b c) b c _ rfl (by simp [Instr.opcode, opcodesF2RR]) rfl fun r q h h' => ⟨_, rfl, .cmp b c r q h h'⟩

/-- The inversion of `exec`: one lemma says everything it can do. -/
theorem exec_cases {i : Instr} {s t : State} (h : exec i s = .next t) : Effect s i t := by
  obtain ⟨u, hu, he⟩ := exec_effect i s
  rw [h] at hu
  injection hu with hu
  exact hu ▸ he

/-- Everything the bytes outside the table can do (R119). -/
theorem unknownOpcode_eq (b0 : Byte) (s : State) :
    unknownOpcode b0 s =
      .next (if s.strictDecode then s.raise .unknownOpcode .mem s.pc (some b0) else s.advance 1) := by
  simp only [unknownOpcode]
  split <;> rfl

end Sys2Proof.Machine
end

