-- ==== Sys2Proof/Laws/Memory.lean ====
section
/-! SUPPORT. The laws of memory: a read after a write, and that every memory operation keeps the canonical form. -/

namespace Sys2Proof.Machine

theorem Memory.read_insertCell_self (m : Memory) (a : Nat) (v : Byte) (h : ∀ c ∈ m, c.1 ≠ a) :
    (m.insertCell a v).read a = v := by
  induction m with
  | nil => simp [Memory.insertCell, Memory.read]
  | cons c m ih =>
    obtain ⟨b, w⟩ := c
    have hb : a ≠ b := fun e => h (b, w) (by simp) e.symm
    have ht : ∀ c ∈ m, c.1 ≠ a := fun c hc => h c (by simp [hc])
    simp only [Memory.insertCell]
    split
    · simp [Memory.read]
    · simp [Memory.read, hb, ih ht]

theorem Memory.read_insertCell_ne (m : Memory) {a b : Nat} (v : Byte) (h : b ≠ a) :
    (m.insertCell a v).read b = m.read b := by
  induction m with
  | nil => simp [Memory.insertCell, Memory.read, h]
  | cons c m ih =>
    obtain ⟨k, w⟩ := c
    simp only [Memory.insertCell]
    split
    · simp [Memory.read, h]
    · simp [Memory.read, ih]

theorem Memory.read_of_absent (m : Memory) (a : Nat) (h : ∀ c ∈ m, c.1 ≠ a) : m.read a = unlistedByte := by
  induction m with
  | nil => rfl
  | cons c m ih =>
    obtain ⟨b, w⟩ := c
    have hb : a ≠ b := fun e => h (b, w) (by simp) e.symm
    simp [Memory.read, hb, ih (fun c hc => h c (by simp [hc]))]

theorem Memory.read_filter_ne (m : Memory) {a b : Nat} (h : b ≠ a) :
    Memory.read (m.filter (fun c => c.1 ≠ a)) b = m.read b := by
  induction m with
  | nil => rfl
  | cons c m ih =>
    obtain ⟨k, w⟩ := c
    by_cases hk : k = a
    · subst hk; simp [Memory.read, h, ← ih]
    · simp [Memory.read, hk, ← ih]

/-- A read of the address just written answers the byte written. -/
@[simp] theorem Memory.read_write_self (m : Memory) (a : Nat) (v : Byte) : (m.write a v).read a = v := by
  have habs : ∀ c ∈ m.filter (fun c => c.1 ≠ a), c.1 ≠ a := by simp
  simp only [Memory.write]
  split
  · next h => subst h; exact Memory.read_of_absent _ a habs
  · exact Memory.read_insertCell_self _ a v habs

/-- A read of any other address answers what it answered before. -/
theorem Memory.read_write_ne (m : Memory) {a b : Nat} (v : Byte) (h : b ≠ a) :
    (m.write a v).read b = m.read b := by
  simp only [Memory.write]
  split
  · exact Memory.read_filter_ne m h
  · rw [Memory.read_insertCell_ne _ v h, Memory.read_filter_ne m h]

theorem Memory.mem_insertCell (m : Memory) (a : Nat) (v : Byte) (c : Host.Cell) :
    c ∈ m.insertCell a v ↔ c = (a, v) ∨ c ∈ m := by
  induction m with
  | nil => simp [Memory.insertCell]
  | cons d m ih =>
    obtain ⟨b, w⟩ := d
    simp only [Memory.insertCell]
    split
    · simp
    · simp [ih, or_left_comm]

theorem Memory.pairwise_insertCell (m : Memory) (a : Nat) (v : Byte)
    (hm : m.Pairwise (fun c d => c.1 < d.1)) (h : ∀ c ∈ m, c.1 ≠ a) :
    (m.insertCell a v).Pairwise (fun c d => c.1 < d.1) := by
  induction m with
  | nil => simp [Memory.insertCell]
  | cons d m ih =>
    obtain ⟨b, w⟩ := d
    have hb : b ≠ a := h (b, w) (by simp)
    obtain ⟨h1, h2⟩ := List.pairwise_cons.mp hm
    simp only [Memory.insertCell]
    split
    · next hlt =>
      refine List.pairwise_cons.mpr ⟨fun c hc => ?_, hm⟩
      rcases List.mem_cons.mp hc with rfl | hc
      · exact hlt
      · exact Nat.lt_trans hlt (h1 c hc)
    · next hge =>
      refine List.pairwise_cons.mpr ⟨fun c hc => ?_, ih h2 (fun c hc => h c (by simp [hc]))⟩
      rcases (Memory.mem_insertCell m a v c).mp hc with rfl | hc
      · show b < a; omega
      · exact h1 c hc

/-- A write of an existing cell keeps the canonical form. -/
theorem Memory.wf_write {m : Memory} (hm : m.wf) {a : Nat} (ha : a < Config.memSize) (v : Byte) :
    (m.write a v).wf := by
  obtain ⟨hp, hc⟩ := hm
  have hp' : (m.filter (fun c => c.1 ≠ a)).Pairwise (fun c d => c.1 < d.1) := hp.filter _
  have hc' : ∀ c ∈ m.filter (fun c => c.1 ≠ a), c.1 < Config.memSize ∧ c.2 ≠ unlistedByte :=
    fun c h => hc c (List.mem_filter.mp h).1
  simp only [Memory.write]
  split
  · exact ⟨hp', hc'⟩
  · next hv =>
    refine ⟨Memory.pairwise_insertCell _ a v hp' (fun c h => by simpa using (List.mem_filter.mp h).2), fun c h => ?_⟩
    rcases (Memory.mem_insertCell _ a v c).mp h with rfl | h
    · exact ⟨ha, hv⟩
    · exact hc' c h

theorem Memory.wf_nil : Memory.wf [] := ⟨List.Pairwise.nil, fun _ h => by cases h⟩

/-- A list of bytes that ends inside memory keeps the canonical form. -/
theorem Memory.wf_writeList {m : Memory} (hm : m.wf) {a : Nat} {vs : List Byte}
    (h : a + vs.length ≤ Config.memSize) : (m.writeList a vs).wf := by
  induction vs generalizing m a with
  | nil => exact hm
  | cons v vs ih =>
    simp only [List.length_cons] at h
    exact ih (Memory.wf_write hm (by omega) v) (by omega)

/-- What every address reads as after a list of bytes was written. -/
theorem Memory.read_writeList (m : Memory) (a : Nat) (vs : List Byte) (b : Nat) :
    (m.writeList a vs).read b = if h : a ≤ b ∧ b - a < vs.length then vs[b - a] else m.read b := by
  induction vs generalizing m a with
  | nil => simp [Memory.writeList]
  | cons v vs ih =>
    rw [Memory.writeList, ih]
    by_cases hab : b = a
    · subst hab
      simp
    · rw [Memory.read_write_ne m v hab]
      by_cases h : a ≤ b ∧ b - a < (v :: vs).length
      · obtain ⟨h1, h2⟩ := h
        simp only [List.length_cons] at h2
        have h3 : a + 1 ≤ b ∧ b - (a + 1) < vs.length := ⟨by omega, by omega⟩
        have h4 : b - a = (b - (a + 1)) + 1 := by omega
        rw [dif_pos h3, dif_pos ⟨h1, by simpa using h2⟩]
        simp [h4]
      · have h3 : ¬ (a + 1 ≤ b ∧ b - (a + 1) < vs.length) := fun ⟨p, q⟩ =>
          h ⟨by omega, by simp only [List.length_cons]; omega⟩
        rw [dif_neg h3, dif_neg h]

/-- The write of one byte by an instruction keeps the canonical form. -/
theorem State.wf_writeByte {s : State} (h : s.mem.wf) (a v : Byte) : (s.writeByte a v).mem.wf :=
  Memory.wf_write h (by have := a.isLt; simp only [Config.memSize]; omega) v

/-- The memory of `State.reset` has the canonical form. -/
theorem reset_mem_wf : State.reset.mem.wf := Memory.wf_nil

/-- Reset with any open parameters leaves memory in the canonical form. -/
theorem resetWith_mem_wf (p : Config.Params) : (State.resetWith p).mem.wf :=
  Memory.wf_writeList Memory.wf_nil (by simp [Config.memSize])

/-- A load that succeeds keeps the canonical form. -/
theorem loadMemory_wf {m m' : Memory} {program : List Byte} (h : loadMemory m program = some m') (hm : m.wf) :
    m'.wf := by
  simp only [loadMemory] at h
  split at h
  · cases h
  · next hlen =>
    cases h
    exact Memory.wf_writeList hm (by simp only [Config.loadBase]; omega)

/-- Placing bytes at `pc` keeps the canonical form. -/
theorem placeAtPc_wf {s : State} (h : s.mem.wf) (bytes : List Byte) : (s.placeAtPc bytes).mem.wf := by
  by_cases hp : s.pc.toNat ≤ Config.memSize
  · exact Memory.wf_writeList h (by simp only [List.length_take]; omega)
  · have : Config.memSize - s.pc.toNat = 0 := by omega
    simpa [State.placeAtPc, this, Memory.writeList] using h

/-- Writing what unlisted addresses read as lists nothing. -/
theorem Memory.writeList_unlisted (n a : Nat) :
    Memory.writeList [] a (List.replicate n unlistedByte) = [] := by
  induction n generalizing a with
  | zero => rfl
  | succ n ih => exact ih (a + 1)

/-- `State.reset` is the reset at the simulation defaults of R4. -/
theorem reset_eq_resetWith : State.reset = State.resetWith Config.simulation := by
  have hl : Config.simulation.memInit.toList = List.replicate 256 unlistedByte := Vector.toList_replicate
  have hr : Config.simulation.regInit.push Config.spReset = State.reset.regs := by decide
  simp only [State.resetWith, hl, hr, Memory.writeList_unlisted]
  rfl

end Sys2Proof.Machine
end

