-- ==== Sys2Proof/Laws/PerInstr.lean ====
section
/-! SUPPORT. Statements for all instructions, one lemma per constructor of `Instr`. -/

/-- The form of an instruction's bytes: its opcode first, then its operand bytes, as many as the top two bits of the
opcode byte count in the table's rows (spec/30_encoding.md R80, R81; R86 as an observation about the 13 rows). -/
def Sys2Proof.Laws.EncodedForm.Statement (i : Sys2Proof.Instr) : Prop :=
  (Sys2Proof.encode i).head? = some i.opcode ∧
  (Sys2Proof.encode i).length = 1 + (i.opcode.toNat / 64) ∧
  (Sys2Proof.encode i).length ≤ 3

namespace Sys2Proof.Laws.EncodedForm

/-- The common form, said once for all constructors. -/
theorem form (i : Instr) : Statement i := by
  cases i <;> simp [Statement, encode, Instr.operands, Instr.opcode]

theorem halt : Statement .halt := form _
theorem ret : Statement .ret := form _
theorem push (reg : Byte) : Statement (.push reg) := form _
theorem pop (reg : Byte) : Statement (.pop reg) := form _
theorem prn (reg : Byte) : Statement (.prn reg) := form _
theorem call (reg : Byte) : Statement (.call reg) := form _
theorem jmp (reg : Byte) : Statement (.jmp reg) := form _
theorem jeq (reg : Byte) : Statement (.jeq reg) := form _
theorem jne (reg : Byte) : Statement (.jne reg) := form _
theorem ldi (reg imm : Byte) : Statement (.ldi reg imm) := form _
theorem add (regA regB : Byte) : Statement (.add regA regB) := form _
theorem mul (regA regB : Byte) : Statement (.mul regA regB) := form _
theorem cmp (regA regB : Byte) : Statement (.cmp regA regB) := form _

end Sys2Proof.Laws.EncodedForm
end

