-- ==== Sys2Proof/Laws/Step.lean ====
section
/-! SUPPORT. Everything the fetch, the cycle and the step can do, said once. -/

namespace Sys2Proof.Machine

/-! ### Addresses -/

theorem toNat_pc_add {p : Pc} {n : Nat} (h : p.toNat + n < 512) : (p + BitVec.ofNat 9 n).toNat = p.toNat + n := by
  simp only [BitVec.toNat_add, BitVec.toNat_ofNat]
  omega

@[simp] theorem toNat_zext9 (b : Byte) : (zext9 b).toNat = b.toNat := by
  have := b.isLt
  simp only [zext9, BitVec.toNat_setWidth]
  omega

theorem narrow_toNat {n : Nat} (h : n < 256) : (narrow n).toNat = n := by
  simp only [narrow, BitVec.toNat_ofNat]
  omega

/-- `MemRead` in range. -/
theorem memRead_of_le {s : State} {a : BitVec 9} (h : a.toNat ≤ 255) : s.memRead a = some (s.mem.read a.toNat) := by
  simp [State.memRead]; omega

/-- `MemRead` out of range. -/
theorem memRead_of_gt {s : State} {a : BitVec 9} (h : 255 < a.toNat) : s.memRead a = none := by
  simp [State.memRead]; omega

theorem memRead_pc_add {s : State} {k : Nat} (h : s.pc.toNat + k ≤ 255) :
    s.memRead (s.pc + BitVec.ofNat 9 k) = some (s.byteAtPc k) := by
  rw [memRead_of_le (by rw [toNat_pc_add (by omega)]; exact h), toNat_pc_add (by omega)]
  rfl

theorem memRead_pc {s : State} (h : s.pc.toNat ≤ 255) : s.memRead s.pc = some (s.byteAtPc 0) := memRead_of_le h

theorem memRead_pc_add_gt {s : State} {k : Nat} (hk : s.pc.toNat + k < 512) (h : 255 < s.pc.toNat + k) :
    s.memRead (s.pc + BitVec.ofNat 9 k) = none :=
  memRead_of_gt (by rw [toNat_pc_add hk]; exact h)

theorem pc_add_eq {s : State} {k n : Nat} (h : s.pc.toNat + k = n) : s.pc + BitVec.ofNat 9 k = BitVec.ofNat 9 n := by
  apply BitVec.eq_of_toNat_eq
  simp only [BitVec.toNat_add, BitVec.toNat_ofNat]
  omega

/-- The bytes from an address inside memory begin with the byte there. -/
theorem bytesFrom_cons (s : State) {a : Nat} (h : a < 256) :
    s.bytesFrom a = s.mem.read a :: s.bytesFrom (a + 1) := by
  have : Config.memSize - a = (Config.memSize - (a + 1)) + 1 := by simp only [Config.memSize]; omega
  simp only [State.bytesFrom, this, List.range'_succ, List.map_cons]

theorem bytesFrom_nil (s : State) {a : Nat} (h : 256 ≤ a) : s.bytesFrom a = [] := by
  have : Config.memSize - a = 0 := by simp only [Config.memSize]; omega
  simp [State.bytesFrom, this]

/-! ### Fetch -/

section
variable {s : State} {i : Instr} {mk1 : Byte → Instr} {mk2 : Byte → Byte → Instr}

theorem fetch_past_end (h : 255 < s.pc.toNat) : fetch s = .outOfRange none s.pc := by
  simp [fetch, memRead_of_gt h]

theorem fetch_unknown (h : s.pc.toNat ≤ 255) (hl : lookup (s.byteAtPc 0) = none) :
    fetch s = .unknown (s.byteAtPc 0) := by
  simp [fetch, memRead_pc h, hl]

theorem fetch_f0 (h : s.pc.toNat ≤ 255) (hl : lookup (s.byteAtPc 0) = some (.f0 i)) : fetch s = .instr i := by
  simp [fetch, memRead_pc h, hl]

theorem fetch_f1 (h : s.pc.toNat ≤ 254) (hl : lookup (s.byteAtPc 0) = some (.f1 mk1)) :
    fetch s = .instr (mk1 (s.byteAtPc 1)) := by
  have h1 := memRead_pc_add (s := s) (k := 1) (by omega)
  simp only [fetch, memRead_pc (s := s) (by omega), hl]
  rw [show s.pc + 1 = s.pc + BitVec.ofNat 9 1 from rfl, h1]

theorem fetch_f1_short (h : s.pc.toNat = 255) (hl : lookup (s.byteAtPc 0) = some (.f1 mk1)) :
    fetch s = .outOfRange (some (s.byteAtPc 0)) 256 := by
  have h1 := memRead_pc_add_gt (s := s) (k := 1) (by omega) (by omega)
  have h2 : s.pc + BitVec.ofNat 9 1 = BitVec.ofNat 9 256 := pc_add_eq (by omega)
  simp only [fetch, memRead_pc (s := s) (by omega), hl]
  rw [show s.pc + 1 = s.pc + BitVec.ofNat 9 1 from rfl, h1, h2]
  rfl

theorem fetch_f2 (h : s.pc.toNat ≤ 253) (hl : lookup (s.byteAtPc 0) = some (.f2 mk2)) :
    fetch s = .instr (mk2 (s.byteAtPc 1) (s.byteAtPc 2)) := by
  have h1 := memRead_pc_add (s := s) (k := 1) (by omega)
  have h2 := memRead_pc_add (s := s) (k := 2) (by omega)
  simp only [fetch, memRead_pc (s := s) (by omega), hl]
  rw [show s.pc + 1 = s.pc + BitVec.ofNat 9 1 from rfl, show s.pc + 2 = s.pc + BitVec.ofNat 9 2 from rfl, h1, h2]

theorem fetch_f2_short (h : s.pc.toNat = 254 ∨ s.pc.toNat = 255)
    (hl : lookup (s.byteAtPc 0) = some (.f2 mk2)) : fetch s = .outOfRange (some (s.byteAtPc 0)) 256 := by
  simp only [fetch, memRead_pc (s := s) (by omega), hl]
  rw [show s.pc + 1 = s.pc + BitVec.ofNat 9 1 from rfl, show s.pc + 2 = s.pc + BitVec.ofNat 9 2 from rfl]
  rcases h with h | h
  · rw [memRead_pc_add (s := s) (k := 1) (by omega), memRead_pc_add_gt (s := s) (k := 2) (by omega) (by omega),
      pc_add_eq (s := s) (k := 2) (n := 256) (by omega)]
    rfl
  · rw [memRead_pc_add_gt (s := s) (k := 1) (by omega) (by omega), pc_add_eq (s := s) (k := 1) (n := 256) (by omega)]
    rfl

end

/-- Everything the fetch can find, with where `pc` must be for it. -/
inductive FetchCase (s : State) : Fetched → Prop where
  | pastEnd (hp : 255 < s.pc.toNat) : FetchCase s (.outOfRange none s.pc)
  | unknown (hp : s.pc.toNat ≤ 255) (hl : lookup (s.byteAtPc 0) = none) : FetchCase s (.unknown (s.byteAtPc 0))
  | whole0 (i : Instr) (hp : s.pc.toNat ≤ 255) (hl : lookup (s.byteAtPc 0) = some (.f0 i)) : FetchCase s (.instr i)
  | whole1 (mk : Byte → Instr) (hp : s.pc.toNat ≤ 254) (hl : lookup (s.byteAtPc 0) = some (.f1 mk)) :
      FetchCase s (.instr (mk (s.byteAtPc 1)))
  | short1 (mk : Byte → Instr) (hp : s.pc.toNat = 255) (hl : lookup (s.byteAtPc 0) = some (.f1 mk)) :
      FetchCase s (.outOfRange (some (s.byteAtPc 0)) 256)
  | whole2 (mk : Byte → Byte → Instr) (hp : s.pc.toNat ≤ 253) (hl : lookup (s.byteAtPc 0) = some (.f2 mk)) :
      FetchCase s (.instr (mk (s.byteAtPc 1) (s.byteAtPc 2)))
  | short2 (mk : Byte → Byte → Instr) (hp : s.pc.toNat = 254 ∨ s.pc.toNat = 255)
      (hl : lookup (s.byteAtPc 0) = some (.f2 mk)) : FetchCase s (.outOfRange (some (s.byteAtPc 0)) 256)

theorem fetch_cases (s : State) : FetchCase s (fetch s) := by
  by_cases hp : s.pc.toNat ≤ 255
  · cases hl : lookup (s.byteAtPc 0) with
    | none => exact fetch_unknown hp hl ▸ .unknown hp hl
    | some sh =>
      cases sh with
      | f0 i => exact fetch_f0 hp hl ▸ .whole0 i hp hl
      | f1 mk =>
        by_cases h : s.pc.toNat ≤ 254
        · exact fetch_f1 h hl ▸ .whole1 mk h hl
        · exact fetch_f1_short (by omega) hl ▸ .short1 mk (by omega) hl
      | f2 mk =>
        by_cases h : s.pc.toNat ≤ 253
        · exact fetch_f2 h hl ▸ .whole2 mk h hl
        · exact fetch_f2_short (by omega) hl ▸ .short2 mk (by omega) hl
  · exact fetch_past_end (s := s) (by omega) ▸ .pastEnd (by omega)

/-- An instruction that is fetched is the bytes at `pc`, the last of them inside memory. -/
theorem fetch_instr {s : State} {i : Instr} (h : fetch s = .instr i) :
    i.opcode = s.byteAtPc 0 ∧ s.pc.toNat + (encode i).length ≤ 256 ∧
      encode i = (List.range (encode i).length).map s.byteAtPc := by
  have hc := fetch_cases s
  rw [h] at hc
  cases hc with
  | whole0 _ hp hl =>
    obtain ⟨ho, hn⟩ := (lookup_spec hl).1
    exact ⟨ho, by simp [encode, hn]; omega, by simp [encode, hn, ho, List.range_succ]⟩
  | whole1 mk hp hl =>
    obtain ⟨ho, hn⟩ := (lookup_spec hl).1 (s.byteAtPc 1)
    exact ⟨ho, by simp [encode, hn]; omega, by simp [encode, hn, ho, List.range_succ]⟩
  | whole2 mk hp hl =>
    obtain ⟨ho, hn⟩ := (lookup_spec hl).1 (s.byteAtPc 1) (s.byteAtPc 2)
    exact ⟨ho, by simp [encode, hn]; omega, by simp [encode, hn, ho, List.range_succ]⟩

/-! ### Step -/

theorem step_of_running {s : State} (h : s.run = .running) : step s = cycle s := by
  simp [step, stepOf, h]

theorem step_of_not_running {s : State} (h : s.run ≠ .running) : step s = .next s := by
  cases hr : s.run with
  | running => exact absurd hr h
  | halted => simp [step, stepOf, hr]
  | faulted => simp [step, stepOf, hr]

/-- A RUNNING core that fetches an instruction executes it. -/
theorem step_of_fetch {s : State} {i : Instr} (hr : s.run = .running) (h : fetch s = .instr i) :
    step s = exec i s := by
  simp [step_of_running hr, cycle, h]

/-- A step in a state that is not RUNNING, a fault of the fetch, an unknown byte, or an instruction's effect. -/
inductive StepsTo (s : State) : State → Prop where
  | idle (h : s.run ≠ .running) : StepsTo s s
  | opcodeFetch (hr : s.run = .running) (hp : 255 < s.pc.toNat) :
      StepsTo s (s.raise .outOfBounds .mem s.pc none)
  | operandFetch (hr : s.run = .running)
      (hp : s.pc.toNat = 255 ∧ s.byteAtPc 0 ∈ opcodesF1R ++ opcodesF2RI ++ opcodesF2RR ∨
        s.pc.toNat = 254 ∧ s.byteAtPc 0 ∈ opcodesF2RI ++ opcodesF2RR) :
      StepsTo s (s.raise .outOfBounds .mem 256 (some (s.byteAtPc 0)))
  | unknown (hr : s.run = .running) (hp : s.pc.toNat ≤ 255) (hl : s.byteAtPc 0 ∉ knownOpcodes)
      (hs : s.strictDecode = true) : StepsTo s (s.raise .unknownOpcode .mem s.pc (some (s.byteAtPc 0)))
  | skip (hr : s.run = .running) (hp : s.pc.toNat ≤ 255) (hl : s.byteAtPc 0 ∉ knownOpcodes)
      (hs : s.strictDecode = false) : StepsTo s (s.advance 1)
  | instr (i : Instr) (t : State) (hr : s.run = .running) (hf : fetch s = .instr i)
      (ho : i.opcode = s.byteAtPc 0) (hp : s.pc.toNat + (encode i).length ≤ 256)
      (hb : encode i = (List.range (encode i).length).map s.byteAtPc) (he : Effect s i t) : StepsTo s t

/-- The step of a RUNNING core that fetches an instruction. -/
theorem step_effect_of_fetch {s : State} {i : Instr} (hr : s.run = .running) (h : fetch s = .instr i) :
    ∃ t, step s = .next t ∧ StepsTo s t := by
  obtain ⟨t, ht, he⟩ := exec_effect i s
  obtain ⟨ho, hp, hb⟩ := fetch_instr h
  exact ⟨t, (step_of_fetch hr h).trans ht, .instr i t hr h ho hp hb he⟩

/-- Every step answers a next state, one of those of `StepsTo`. -/
theorem step_effect (s : State) : ∃ t, step s = .next t ∧ StepsTo s t := by
  by_cases hr : s.run = .running
  · have hc := fetch_cases s
    generalize hf : fetch s = f at hc
    have hs : step s = cycle s := step_of_running hr
    cases hc with
    | pastEnd hp => exact ⟨_, by rw [hs, cycle, hf], .opcodeFetch hr hp⟩
    | unknown hp hl =>
      have hk := (lookup_eq_none_iff _).mp hl
      rw [hs, cycle, hf]
      simp only [unknownOpcode_eq]
      cases hd : s.strictDecode
      · exact ⟨_, rfl, .skip hr hp hk hd⟩
      · exact ⟨_, rfl, .unknown hr hp hk hd⟩
    | whole0 => exact step_effect_of_fetch hr hf
    | whole1 => exact step_effect_of_fetch hr hf
    | whole2 => exact step_effect_of_fetch hr hf
    | short1 mk hp hl =>
      have ho : s.byteAtPc 0 ∈ opcodesF1R := (lookup_spec hl).2
      exact ⟨_, by rw [hs, cycle, hf], .operandFetch hr (.inl ⟨hp, by simp [ho]⟩)⟩
    | short2 mk hp hl =>
      have ho : s.byteAtPc 0 ∈ opcodesF2RI ++ opcodesF2RR := (lookup_spec hl).2
      exact ⟨_, by rw [hs, cycle, hf], .operandFetch hr
        (hp.elim (fun hp => .inr ⟨hp, ho⟩)
          (fun hp => .inl ⟨hp, by rw [List.append_assoc]; exact List.mem_append_right _ ho⟩))⟩
  · exact ⟨s, step_of_not_running hr, .idle hr⟩

/-- The inversion of `step`. -/
theorem step_cases {s t : State} (h : step s = .next t) : StepsTo s t := by
  obtain ⟨u, hu, hs⟩ := step_effect s
  rw [h] at hu
  injection hu with hu
  exact hu ▸ hs

end Sys2Proof.Machine
end

