-- ==== Sys2Proof/Tests/Slice0.lean ====
section
/-! SUPPORT. The model's own tests: well-formedness, decoding from words written out bit by bit, one step per vector of
spec/95_test_vectors.md, and a witness for every statement that has hypotheses. Expected results are the spec's. -/

namespace Sys2Proof.Tests

open Sys2Proof.Machine

/-! ### Helpers -/

/-- The reset state with bytes at `pc` and register values. -/
def mk (pc : Nat) (bytes : List Byte) (regs : List (Reg × Byte) := []) : State :=
  regs.foldl (fun s rv => s.setX rv.1 rv.2)
    { State.reset with pc := BitVec.ofNat 9 pc, mem := Memory.writeList [] pc bytes }

def withFlags (s : State) (l g e : Bool) : State := { s with flags := ⟨l, g, e⟩ }

def withByte (s : State) (a : Nat) (v : Byte) : State := { s with mem := s.mem.write a v }

def lenient (s : State) : State := { s with strictDecode := false }

/-- The state an outcome answers; `dflt` where it answers none. -/
def stateOf (r : Result) (dflt : State) : State :=
  match r with
  | .next t => t
  | .fault _ => dflt
  | .refused _ => dflt

/-- The state after one step. -/
def after (s : State) : State := stateOf (step s) s

theorem step_after (s : State) : step s = .next (after s) := by
  obtain ⟨t, ht, _⟩ := step_effect s
  simp [after, stateOf, ht]

/-! ### Well-formedness: a term for each check that the check refuses -/

theorem test_wf_accepts_seven :
    (Instr.push 7).wellFormed = true ∧ (Instr.ldi 7 255).wellFormed = true ∧ (Instr.add 7 7).wellFormed = true := by
  decide

theorem test_wf_refuses_one_operand :
    (Instr.push 8).wellFormed = false ∧ (Instr.pop 8).wellFormed = false ∧ (Instr.prn 8).wellFormed = false ∧
    (Instr.call 255).wellFormed = false ∧ (Instr.jmp 8).wellFormed = false ∧ (Instr.jeq 9).wellFormed = false ∧
    (Instr.jne 128).wellFormed = false := by decide

theorem test_wf_refuses_two_operands :
    (Instr.ldi 8 0).wellFormed = false ∧ (Instr.add 8 0).wellFormed = false ∧ (Instr.add 0 8).wellFormed = false ∧
    (Instr.mul 8 0).wellFormed = false ∧ (Instr.mul 0 200).wellFormed = false ∧ (Instr.cmp 8 0).wellFormed = false ∧
    (Instr.cmp 0 8).wellFormed = false := by decide

/-! ### Decoding: words written out from R81 and R85, the last byte in memory leftmost -/

theorem test_decode_halt : decodeTableWord 8 0b00000001 = some .halt := by decide
theorem test_decode_ret : decodeTableWord 8 0b00010001 = some .ret := by decide
theorem test_decode_push : decodeTableWord 16 0b0000011101000101 = some (.push 7) := by decide
theorem test_decode_pop : decodeTableWord 16 0b0000000101000110 = some (.pop 1) := by decide
theorem test_decode_prn : decodeTableWord 16 0b0000001001000111 = some (.prn 2) := by decide
theorem test_decode_call : decodeTableWord 16 0b0000010101010000 = some (.call 5) := by decide
theorem test_decode_jmp : decodeTableWord 16 0b1111111101010100 = some (.jmp 255) := by decide
theorem test_decode_jeq : decodeTableWord 16 0b0000001101010101 = some (.jeq 3) := by decide
theorem test_decode_jne : decodeTableWord 16 0b0000010001010110 = some (.jne 4) := by decide
theorem test_decode_ldi : decodeTableWord 24 0b000010000000000010000010 = some (.ldi 0 8) := by decide
theorem test_decode_add : decodeTableWord 24 0b000000010000000010100000 = some (.add 0 1) := by decide
theorem test_decode_mul : decodeTableWord 24 0b000000110000011010100010 = some (.mul 6 3) := by decide
theorem test_decode_cmp : decodeTableWord 24 0b000000110000000110100111 = some (.cmp 1 3) := by decide
theorem test_decode_refuses_zero : decodeTableWord 8 0 = none := by decide
theorem test_encode_ldi : encode (.ldi 0 8) = [130, 0, 8] := by decide

/-! ### One step per vector of spec/95_test_vectors.md -/

/-- V1.1. -/
theorem test_add_wraps :
    (after (mk 0 [160, 0, 1] [(0, 200), (1, 100)])).x 0 = 44 ∧ (after (mk 0 [160, 0, 1] [(0, 200), (1, 100)])).pc = 3 := by
  decide
/-- V1.6. -/
theorem test_add_sp : (after (mk 0 [160, 7, 0] [(0, 0x10)])).sp = 0x04 := by decide
/-- V1.8. -/
theorem test_mul_low_byte : (after (mk 0 [162, 0, 1] [(0, 255), (1, 255)])).x 0 = 1 := by decide
/-- V1.11. -/
theorem test_mul_square : (after (mk 0 [162, 5, 5] [(5, 17)])).x 5 = 33 := by decide
/-- V2.2. -/
theorem test_ldi_sp : (after (mk 0 [130, 7, 128])).sp = 128 ∧ (after (mk 0 [130, 7, 128])).x 7 = 128 := by decide
/-- V6.11. -/
theorem test_ldi_at_the_end : (after (mk 253 [130, 0, 7])).pc = 256 ∧ (after (mk 253 [130, 0, 7])).x 0 = 7 := by decide
/-- V2.6. -/
theorem test_prn_sp : (after (mk 0 [71, 7])).out = [244] ∧ (after (mk 0 [71, 7])).pc = 2 := by decide
/-- V2.7. -/
theorem test_prn_fault : (after (mk 0 [71, 8])).out = [] ∧ (after (mk 0 [71, 8])).fault.index = 8 := by decide
/-- V3.3. -/
theorem test_push_sp : (after (mk 0 [69, 7])).sp = 0xF3 ∧ (after (mk 0 [69, 7])).mem.read 0xF3 = 0xF3 := by decide
/-- V3.2. -/
theorem test_push_wraps :
    (after (mk 0 [69, 0] [(7, 0), (0, 77)])).sp = 255 ∧ (after (mk 0 [69, 0] [(7, 0), (0, 77)])).mem.read 255 = 77 := by
  decide
/-- V3.5. -/
theorem test_pop_wraps :
    (after (withByte (mk 0 [70, 0] [(7, 255)]) 255 9)).x 0 = 9 ∧
      (after (withByte (mk 0 [70, 0] [(7, 255)]) 255 9)).sp = 0 := by decide
/-- V3.6. -/
theorem test_pop_sp : (after (withByte (mk 0 [70, 7] [(7, 0xF3)]) 0xF3 0x40)).sp = 0x41 := by decide
/-- V4.1. -/
theorem test_call :
    (after (mk 6 [80, 1] [(1, 11)])).mem.read 0xF3 = 8 ∧ (after (mk 6 [80, 1] [(1, 11)])).pc = 11 := by decide
/-- V4.3. -/
theorem test_call_at_254 :
    (after (mk 254 [80, 1])).fault = ⟨.outOfBounds, 254, true, 80, .mem, 256⟩ ∧ (after (mk 254 [80, 1])).sp = 0xF4 := by
  decide
/-- V4.5. -/
theorem test_ret :
    (after (withByte (mk 21 [17] [(7, 0xF3)]) 0xF3 8)).pc = 8 ∧
      (after (withByte (mk 21 [17] [(7, 0xF3)]) 0xF3 8)).sp = 0xF4 := by decide
/-- V4.6. -/
theorem test_ret_wraps : (after (withByte (mk 0 [17] [(7, 255)]) 255 100)).sp = 0 := by decide
/-- V4.7. -/
theorem test_jmp : (after (mk 9 [84, 2] [(2, 0x20)])).pc = 0x20 := by decide
/-- V4.16. -/
theorem test_jmp_fault : (after (mk 0 [84, 255])).fault = ⟨.outOfBounds, 0, true, 84, .reg, 255⟩ := by decide
/-- V4.9, V4.10. -/
theorem test_jeq :
    (after (withFlags (mk 12 [85, 3] [(3, 40)]) false false true)).pc = 40 ∧
      (after (withFlags (mk 12 [85, 3] [(3, 40)]) true false false)).pc = 14 := by decide
/-- V4.15. -/
theorem test_jeq_untaken_fault : (after (mk 0 [85, 9])).fault.index = 9 := by decide
/-- V4.13, V4.14. -/
theorem test_jne :
    (after (withFlags (mk 24 [86, 4] [(4, 15)]) false false true)).pc = 26 ∧
      (after (mk 24 [86, 4] [(4, 15)])).pc = 15 := by decide
/-- V5.2. -/
theorem test_cmp_clears :
    (after (withFlags (mk 0 [167, 0, 1] [(0, 2), (1, 6)]) false false true)).flags = ⟨true, false, false⟩ := by decide
/-- V5.6. -/
theorem test_cmp_unsigned : (after (mk 0 [167, 0, 1] [(0, 128), (1, 127)])).flags = ⟨false, true, false⟩ := by decide
/-- V6.1. -/
theorem test_halt : (after (mk 5 [1])).run = .halted ∧ after (after (mk 5 [1])) = after (mk 5 [1]) := by decide
/-- V6.3. -/
theorem test_unknown_strict : (after (mk 0 [0])).fault = ⟨.unknownOpcode, 0, true, 0, .mem, 0⟩ := by decide
/-- V6.5. -/
theorem test_unknown_lenient : (after (lenient (mk 0 [131, 1, 1]))).pc = 1 := by decide
/-- V6.7, its second step. -/
theorem test_fetch_past_end : (after (mk 256 [])).fault = ⟨.outOfBounds, 256, false, 0, .mem, 256⟩ := by decide
/-- V6.9. -/
theorem test_operand_before_register : (after (mk 254 [130, 9])).fault = ⟨.outOfBounds, 254, true, 130, .mem, 256⟩ := by
  decide
/-- V3.9: the pushed byte is what the next step fetches. -/
theorem test_push_over_code : (after (after (mk 0 [69, 0, 71, 0] [(7, 3), (0, 1)]))).run = .halted := by decide
/-- R133: another ALU operation is no program's, and raises. -/
theorem test_alu_other : alu .other 1 2 = none := by decide
/-- R121 at `pc = 255`: the two bytes past the end are absent. -/
theorem test_trace_at_the_end : (traceView (mk 255 [1])).map TraceView.bytes = some [some 1, none, none] := by decide
/-- R32: the packed flags byte. -/
theorem test_packed : (Flags.mk true false true).packed = 5 := by decide
/-- R33, R34: the numeric codes. -/
theorem test_codes : RunState.faulted.code = 2 ∧ FaultKind.unsupportedOperation.code = 3 ∧ FaultSpace.reg.code = 1 := by
  decide
/-- The host's two probes, on the document's own LDI. -/
theorem test_fetch_word : (after (State.reset.withFetchWord 24 0x080082)).x 0 = 8 := by decide

/-! ### Witnesses: for every statement with hypotheses, data that meet them, each clause at a boundary -/

theorem witness_DecodeOfEncodeIsTheInstruction :
    encode (.ldi 0 8) ++ [71] = encode (.ldi 0 8) ++ ([71] : List Byte) := rfl

theorem witness_DecodeAcceptsOnlyEncodings : decode [130, 0, 8, 71] = .ok (.ldi 0 8, [71]) := rfl

theorem witness_OpcodeMapIsTheTable :
    (0 : Byte).toNat ∉ [1, 17, 69, 70, 71, 80, 84, 85, 86, 130, 160, 162, 167] ∧
    (255 : Byte).toNat ∉ [1, 17, 69, 70, 71, 80, 84, 85, 86, 130, 160, 162, 167] := by decide

theorem witness_OpcodeFixesLength :
    decode [69, 7] = .ok (.push 7, []) ∧ decode [69, 0, 1] = .ok (.push 0, [1]) ∧
      ([69, 7] : List Byte).head? = ([69, 0, 1] : List Byte).head? := ⟨rfl, rfl, rfl⟩

theorem witness_StoredInstructionIsExecuted : (mk 253 []).pc.toNat + (encode (.ldi 7 255)).length ≤ 256 := by decide

theorem witness_StepRunsTheDecodedInstruction :
    (mk 254 [69, 7]).run = .running ∧ decode ((mk 254 [69, 7]).bytesFrom (mk 254 [69, 7]).pc.toNat) = .ok (.push 7, []) :=
  ⟨rfl, rfl⟩

theorem witness_TerminalStatesAreFinal :
    (after (mk 0 [1])).run ≠ .running ∧ (after (mk 0 [0])).run ≠ .running := by decide

/-- HALTED, FAULTED, a HALT, a fault (cause a), and a step that is neither. -/
theorem witness_RunStateMachineRows :
    (after (mk 0 [1])).run = .halted ∧ (after (mk 0 [0])).run = .faulted ∧ FetchesOpcode (mk 255 [1]) 0x01 ∧
    (∃ f, FaultCause (mk 256 []) f) ∧ (mk 256 []).run = .running ∧
    (∃ t, step (mk 254 [69, 7]) = .next t) ∧ ¬ FetchesOpcode (mk 254 [69, 7]) 0x01 :=
  ⟨by decide, by decide, ⟨rfl, by decide, by decide⟩, ⟨_, .opcodeFetch (by decide)⟩, rfl, ⟨_, step_after _⟩,
    fun h => absurd h.2.2 (by decide)⟩

/-- One completing step for each row of the table, at the last address where it fits. -/
theorem witness_PcChangesAsTheTableSays :
    (∀ s ∈ [mk 254 [69, 7], mk 253 [167, 0, 7], mk 253 [80, 7], mk 254 [84, 7], mk 254 [85, 7], mk 254 [86, 7],
        mk 255 [17], mk 255 [1], lenient (mk 255 [255])],
      s.run = .running ∧ (after s).run ≠ .faulted) ∧
    (mk 254 [85, 7]).byteAtPc 0 = 0x55 ∧ ((mk 254 [85, 7]).byteAtPc 1).toNat = (7 : Reg).val ∧
    (lenient (mk 255 [255])).byteAtPc 0 ∉ knownOpcodes := by decide

theorem witness_UnknownOpcodeInBothModes :
    ∀ s ∈ [mk 255 [200], lenient (mk 255 [200]), mk 0 [0], lenient (mk 0 [0])],
      s.run = .running ∧ s.pc.toNat ≤ 255 ∧ s.byteAtPc 0 ∉ knownOpcodes := by decide

theorem witness_IllegalRegisterOperandsRaise :
    (7 : Byte).toNat ≤ 7 ∧ 7 < (8 : Byte).toNat ∧ 7 < (255 : Byte).toNat ∧ Instr.push 8 ∈ [Instr.push 8, .pop 8] := by
  decide

/-- Every cause of R202 at its boundary, in RUNNING. -/
theorem witness_FaultsExactlyOnTheListedCauses :
    FaultCause (mk 256 []) ⟨.outOfBounds, 256, false, 0, .mem, 256⟩ ∧
    FaultCause (mk 255 [200]) ⟨.unknownOpcode, 255, true, 200, .mem, 255⟩ ∧
    FaultCause (mk 255 [69]) ⟨.outOfBounds, 255, true, 69, .mem, 256⟩ ∧
    FaultCause (mk 254 [130, 9]) ⟨.outOfBounds, 254, true, 130, .mem, 256⟩ ∧
    FaultCause (mk 254 [80, 8]) ⟨.outOfBounds, 254, true, 80, .reg, 8⟩ ∧
    FaultCause (mk 253 [130, 8, 1]) ⟨.outOfBounds, 253, true, 130, .reg, 8⟩ ∧
    FaultCause (mk 253 [160, 7, 8]) ⟨.outOfBounds, 253, true, 160, .reg, 8⟩ ∧
    FaultCause (mk 254 [80, 7]) ⟨.outOfBounds, 254, true, 80, .mem, 256⟩ :=
  ⟨.opcodeFetch (s := mk 256 []) (by decide),
    .unknownOpcode (s := mk 255 [200]) (by decide) rfl (by decide),
    .firstOperandFetch (s := mk 255 [69]) (by decide) (by decide),
    .secondOperandFetch (s := mk 254 [130, 9]) (by decide) (by decide),
    .onlyRegister (s := mk 254 [80, 8]) (by decide) (by decide) (by decide),
    .firstRegister (s := mk 253 [130, 8, 1]) (by decide) (by decide) (by decide),
    .secondRegister (s := mk 253 [160, 7, 8]) (by decide) (by decide) (by decide) (by decide),
    .returnAddress (s := mk 254 [80, 7]) (by decide) (by decide) (by decide)⟩

theorem witness_FaultingStepChangesOnlyRunAndRecord :
    (∀ s ∈ [mk 256 [], mk 255 [69]], s.run = .running ∧ (after s).run = .faulted) ∧
    (after (mk 256 [])).fault.opcodeValid = false ∧ (after (mk 255 [69])).fault.opcodeValid = true := by decide

theorem witness_OpcodeFetchPastTheEndFaults : (mk 256 []).run = .running ∧ (mk 256 []).pc = 256 := by decide

theorem witness_OperandFetchPastTheEndFaults :
    (mk 255 [167]).run = .running ∧ (mk 255 [167]).pc = 255 ∧
    (mk 255 [167]).byteAtPc 0 ∈ opcodesF1R ++ opcodesF2RI ++ opcodesF2RR ∧
    (mk 254 [130]).run = .running ∧ (mk 254 [130]).pc = 254 ∧
    (mk 254 [130]).byteAtPc 0 ∈ opcodesF2RI ++ opcodesF2RR := by decide

theorem witness_FirstFailingCheckIsReported :
    ((mk 255 [200]).pc = 255 ∧ (mk 255 [200]).byteAtPc 0 ∉ knownOpcodes ∧ (mk 255 [200]).strictDecode = true) ∧
    ((mk 254 [130, 9]).pc = 254 ∧ (mk 254 [130, 9]).byteAtPc 0 = 0x82 ∧ (mk 254 [130, 9]).byteAtPc 1 = 9) ∧
    ((mk 253 [160, 8, 8]).pc.toNat ≤ 253 ∧ (mk 253 [160, 8, 8]).byteAtPc 0 = 0xA0 ∧
      7 < ((mk 253 [160, 8, 8]).byteAtPc 1).toNat ∧ 7 < ((mk 253 [160, 8, 8]).byteAtPc 2).toNat) ∧
    ((mk 254 [80, 8]).pc = 254 ∧ (mk 254 [80, 8]).byteAtPc 0 = 0x50 ∧ 7 < ((mk 254 [80, 8]).byteAtPc 1).toNat) := by
  decide

theorem witness_NoStepRaisesUnsupportedOperation :
    (mk 0 [160, 8, 0]).run = .running ∧ step (mk 0 [160, 8, 0]) = .next (after (mk 0 [160, 8, 0])) ∧
      (after (mk 0 [160, 8, 0])).run = .faulted := ⟨rfl, step_after _, by decide⟩

theorem witness_LoadWritesTheProgram :
    (Session.construct Config.simulation).phase = .constructed ∧ (List.replicate 256 (1 : Byte)).length ≤ 256 ∧
      256 < (List.replicate 257 (1 : Byte)).length ∧ State.reset.mem.wf :=
  ⟨rfl, by rw [List.length_replicate], by rw [List.length_replicate]; omega, reset_mem_wf⟩

theorem witness_LateLoadIsRefused : ((Session.mk State.reset .constructed).load [1]).2 = .next () := rfl

theorem witness_RunToEndIsSingleSteps : (runToEnd (mk 0 [69, 0, 1]) 2).isSome = true := by decide

theorem witness_StepKeepsMemoryCanonical :
    (mk 254 [69, 7]).mem.wf ∧ step (mk 254 [69, 7]) = .next (after (mk 254 [69, 7])) := ⟨by decide, step_after _⟩

theorem witness_CanonicalMemoriesThatReadAlikeAreEqual :
    Memory.wf [(0, 1), (255, 2)] ∧ ∀ a, Memory.read [(0, 1), (255, 2)] a = Memory.read [(0, 1), (255, 2)] a :=
  ⟨by decide, fun _ => rfl⟩

theorem witness_StepKeepsPcInRange :
    PcInRange (mk 254 [69, 7]) ∧ PcInRange (mk 256 []) ∧ step (mk 254 [69, 7]) = .next (after (mk 254 [69, 7])) ∧
      (after (mk 254 [69, 7])).pc = 256 :=
  ⟨by show (254 : Nat) ≤ 256; omega, by show (256 : Nat) ≤ 256; omega, step_after _, by decide⟩

theorem witness_StepKeepsAtMostOneFlag :
    FlagsAtMostOne (withFlags (mk 253 [167, 7, 7]) true false false) ∧
      FetchesOpcode (withFlags (mk 253 [167, 7, 7]) true false false) 0xA7 ∧
      (after (withFlags (mk 253 [167, 7, 7]) true false false)).run = .running :=
  ⟨by show (1 : Nat) ≤ 1; omega, ⟨rfl, by decide, by decide⟩, by decide⟩

theorem witness_StepKeepsFaultRecordFitting :
    PcInRange (mk 256 []) ∧ FaultRecordFits (mk 256 []) ∧ step (mk 256 []) = .next (after (mk 256 [])) :=
  ⟨by show (256 : Nat) ≤ 256; omega, ⟨fun _ => rfl, fun h => by cases h⟩, step_after _⟩

theorem witness_RunsKeepTheInvariant : (mk 254 [69, 7]).Inv :=
  ⟨by show (254 : Nat) ≤ 256; omega, by show (0 : Nat) ≤ 1; omega, ⟨fun _ => rfl, fun h => by cases h⟩, by decide⟩

theorem witness_StepKeepsTheDecodeStrap : step (lenient (mk 0 [0])) = .next (after (lenient (mk 0 [0]))) := step_after _

theorem witness_OutputIsAppendOnly :
    step (mk 254 [71, 7]) = .next (after (mk 254 [71, 7])) ∧ (after (mk 254 [71, 7])).out ≠ [] :=
  ⟨step_after _, by decide⟩

theorem witness_OnlyCmpChangesFlags :
    step (mk 253 [167, 0, 0]) = .next (after (mk 253 [167, 0, 0])) ∧
      (after (mk 253 [167, 0, 0])).flags ≠ (mk 253 [167, 0, 0]).flags := ⟨step_after _, by decide⟩

theorem witness_OnlyPushAndCallChangeMemory :
    step (mk 0 [69, 7] [(7, 0)]) = .next (after (mk 0 [69, 7] [(7, 0)])) ∧
      (after (mk 0 [69, 7] [(7, 0)])).mem.read 255 ≠ (mk 0 [69, 7] [(7, 0)]).mem.read 255 ∧
      (after (mk 253 [80, 7])).mem.read 0xF3 ≠ (mk 253 [80, 7]).mem.read 0xF3 :=
  ⟨step_after _, by decide, by decide⟩

theorem witness_RegistersChangeOnlyByTheirWriters :
    step (mk 253 [130, 0, 5]) = .next (after (mk 253 [130, 0, 5])) ∧
      (after (mk 253 [130, 0, 5])).x 0 ≠ (mk 253 [130, 0, 5]).x 0 ∧ (after (mk 255 [17])).x 7 ≠ (mk 255 [17]).x 7 :=
  ⟨step_after _, by decide, by decide⟩

theorem witness_StepIgnoresLessAndGreater : step (mk 254 [85, 0]) = .next (after (mk 254 [85, 0])) := step_after _

theorem witness_StepIgnoresOutputAndFaultRecord : step (mk 254 [71, 0]) = .next (after (mk 254 [71, 0])) := step_after _

theorem witness_StackPointerMirrorsRegisterSeven : (0 : Reg) ≠ 7 ∧ (6 : Reg) ≠ 7 := by decide

theorem witness_MemoryInterfaceContract :
    (255 : BitVec 9).toNat ≤ 255 ∧ 255 < (256 : BitVec 9).toNat ∧ (254 : BitVec 9) ≠ 255 := by decide

/-- Format F1R: at 255, an invalid register at 254, and register 7 at 254. -/
theorem witness_F1RRules :
    ∀ op ∈ opcodesF1R,
      (mk 255 [op]).run = .running ∧ (mk 255 [op]).pc.toNat = 255 ∧ (mk 255 [op]).byteAtPc 0 = op ∧
      (mk 254 [op, 8]).run = .running ∧ (mk 254 [op, 8]).pc.toNat = 254 ∧ (mk 254 [op, 8]).byteAtPc 0 = op ∧
      7 < ((mk 254 [op, 8]).byteAtPc 1).toNat ∧
      (mk 254 [op, 7]).byteAtPc 0 = op ∧ ((mk 254 [op, 7]).byteAtPc 1).toNat = (7 : Reg).val := by decide

theorem witness_PushRule : FetchesOpcode (mk 254 [69, 7]) 0x45 ∧ (7 : Byte).toNat = (7 : Reg).val :=
  ⟨⟨rfl, by decide, by decide⟩, rfl⟩
theorem witness_PopRule : FetchesOpcode (mk 254 [70, 7]) 0x46 ∧ (7 : Byte).toNat = (7 : Reg).val ∧ (0 : Reg) ≠ 7 :=
  ⟨⟨rfl, by decide, by decide⟩, rfl, by decide⟩
theorem witness_PrnRule : FetchesOpcode (mk 254 [71, 0]) 0x47 ∧ (0 : Byte).toNat = (0 : Reg).val :=
  ⟨⟨rfl, by decide, by decide⟩, rfl⟩
theorem witness_CallRule :
    FetchesOpcode (mk 253 [80, 7]) 0x50 ∧ (mk 253 [80, 7]).pc.toNat ≤ 253 ∧ FetchesOpcode (mk 254 [80, 7]) 0x50 ∧
      (mk 254 [80, 7]).pc = 254 := ⟨⟨rfl, by decide, by decide⟩, by decide, ⟨rfl, by decide, by decide⟩, by decide⟩
theorem witness_JmpRule : FetchesOpcode (mk 254 [84, 7]) 0x54 := ⟨rfl, by decide, by decide⟩
theorem witness_JeqRule :
    FetchesOpcode (mk 254 [85, 7]) 0x55 ∧ (mk 254 [85, 7]).flags.equal = false ∧
      FetchesOpcode (withFlags (mk 254 [85, 7]) false false true) 0x55 :=
  ⟨⟨rfl, by decide, by decide⟩, rfl, ⟨rfl, by decide, by decide⟩⟩
theorem witness_JneRule :
    FetchesOpcode (mk 254 [86, 7]) 0x56 ∧ (mk 254 [86, 7]).flags.equal = false ∧
      FetchesOpcode (withFlags (mk 254 [86, 7]) false false true) 0x56 :=
  ⟨⟨rfl, by decide, by decide⟩, rfl, ⟨rfl, by decide, by decide⟩⟩

/-- Format F2RI: at 254, an invalid register at 253, and register 7 at 253. -/
theorem witness_LdiRule :
    FetchesOpcode (mk 254 [130, 9]) 0x82 ∧ 254 ≤ (mk 254 [130, 9]).pc.toNat ∧
    FetchesOpcode (mk 253 [130, 8, 1]) 0x82 ∧ 7 < ((mk 253 [130, 8, 1]).byteAtPc 1).toNat ∧
    FetchesOpcode (mk 253 [130, 7, 1]) 0x82 ∧ ((mk 253 [130, 7, 1]).byteAtPc 1).toNat = (7 : Reg).val :=
  ⟨⟨rfl, by decide, by decide⟩, by decide, ⟨rfl, by decide, by decide⟩, by decide, ⟨rfl, by decide, by decide⟩, by decide⟩

/-- Format F2RR: at 254 and 255, each operand invalid at 253, and both valid at 253. -/
theorem witness_F2RRRules :
    ∀ op ∈ opcodesF2RR,
      (mk 254 [op, 8]).byteAtPc 0 = op ∧ 254 ≤ (mk 254 [op, 8]).pc.toNat ∧ (mk 255 [op]).byteAtPc 0 = op ∧
      (mk 253 [op, 8, 0]).byteAtPc 0 = op ∧ 7 < ((mk 253 [op, 8, 0]).byteAtPc 1).toNat ∧
      (mk 253 [op, 7, 8]).byteAtPc 0 = op ∧ ((mk 253 [op, 7, 8]).byteAtPc 1).toNat ≤ 7 ∧
      7 < ((mk 253 [op, 7, 8]).byteAtPc 2).toNat ∧
      (mk 253 [op, 7, 0]).byteAtPc 0 = op ∧ ((mk 253 [op, 7, 0]).byteAtPc 1).toNat = (7 : Reg).val ∧
      ((mk 253 [op, 7, 0]).byteAtPc 2).toNat = (0 : Reg).val ∧ (mk 253 [op, 7, 0]).pc.toNat ≤ 253 := by decide

theorem witness_AddRule : FetchesOpcode (mk 253 [160, 7, 0]) 0xA0 := ⟨rfl, by decide, by decide⟩
theorem witness_MulRule : FetchesOpcode (mk 253 [162, 7, 0]) 0xA2 := ⟨rfl, by decide, by decide⟩
theorem witness_CmpRule : FetchesOpcode (mk 253 [167, 7, 0]) 0xA7 := ⟨rfl, by decide, by decide⟩
theorem witness_RetRule : FetchesOpcode (mk 255 [17]) 0x11 := ⟨rfl, by decide, by decide⟩
theorem witness_HaltRule : FetchesOpcode (mk 255 [1]) 0x01 := ⟨rfl, by decide, by decide⟩

theorem witness_PushThenPopRoundTrips :
    (0 : Byte).toNat = (0 : Reg).val ∧ (6 : Byte).toNat = (6 : Reg).val ∧ (0 : Reg) ≠ 7 ∧ (6 : Reg) ≠ 7 := by decide

theorem witness_CallThenRetResumesAfterTheCall :
    (7 : Byte).toNat = (7 : Reg).val ∧ (mk 253 [80, 7]).pc.toNat ≤ 253 := by decide

theorem witness_JeqAndJneAreComplements : (7 : Byte).toNat = (7 : Reg).val := by decide

/-- The premises of `NextFetchSeesThePushedByte` on the state; the operand is any byte that names a register. -/
def PushesOntoNext (s : State) : Prop :=
  s.run = .running ∧ s.pc.toNat ≤ 253 ∧ (s.sp - 1).toNat = s.pc.toNat + 2

/-- One state for each outcome: register 0 holds an unknown byte; HALT, at the last address; PUSH, whose operand byte
would lie at 256; and PUSH R7 storing 0x11, which is RET. -/
theorem witness_NextFetchSeesThePushedByte :
    PushesOntoNext (mk 253 [69, 0] [(7, 0), (0, 2)]) ∧ PushesOntoNext (mk 253 [69, 0] [(7, 0), (0, 1)]) ∧
      PushesOntoNext (mk 253 [69, 0] [(7, 0), (0, 69)]) ∧ PushesOntoNext (mk 15 [69, 7] [(7, 18)]) := by
  simp only [PushesOntoNext]; decide

theorem witness_NextFetchSeesThePushedByte_outcomes :
    fetch (after (mk 253 [69, 0] [(7, 0), (0, 2)])) = .unknown 2 ∧
    fetch (after (mk 253 [69, 0] [(7, 0), (0, 1)])) = .instr .halt ∧
    fetch (after (mk 253 [69, 0] [(7, 0), (0, 69)])) = .outOfRange (some 69) 256 ∧
    fetch (after (mk 15 [69, 7] [(7, 18)])) = .instr .ret := by decide

theorem witness_TraceHookIsShownTheFetch :
    (mk 255 [1]).run = .running ∧ (after (mk 255 [1])).run ≠ .running := by decide

end Sys2Proof.Tests
end

section
/-!
PROOFS. The register file (spec/10_state.md): register 7 and `sp` are one cell with two names.
-/

namespace Sys2Proof.Machine

theorem State.sp_eq_x_seven (s : State) : s.sp = s.x 7 := rfl

theorem State.sp_setX_of_ne (s : State) {r : Reg} (v : Byte) (hr : r ≠ 7) : (s.setX r v).sp = s.sp := by
  rw [State.sp_eq_x_seven, State.x_setX, if_neg hr.symm, State.sp_eq_x_seven]

theorem State.x_setSp_of_ne (s : State) {r : Reg} (v : Byte) (hr : r ≠ 7) : (s.setSp v).x r = s.x r := by
  rw [State.x_setSp, if_neg hr]

/-- Settles O39: `sp` is a read of register 7 (log entry 4), so a write is seen through both names and a write of
another register through neither. -/
theorem stackPointerMirrorsRegisterSeven : Obligations.StackPointerMirrorsRegisterSeven := fun s v =>
  ⟨s.sp_eq_x_seven, s.sp_setX_sp v, s.sp_setSp v, fun _ hr => ⟨s.sp_setX_of_ne v hr, s.x_setSp_of_ne v hr⟩⟩

end Sys2Proof.Machine
end

section
/-!
PROOFS. The decoder (spec/30_encoding.md): what the opcode map fixes for the bytes after the opcode byte, and what
bytes that decode must be.
-/

namespace Sys2Proof

section
variable {b0 : Byte} {bytes rest : List Byte} {i : Instr}

theorem decode_of_lookup_none (h : lookup b0 = none) (rest : List Byte) :
    decode (b0 :: rest) = .error (.unknownOpcode b0) := by
  simp [decode, h]

theorem decode_of_lookup_f0 (h : lookup b0 = some (.f0 i)) (rest : List Byte) :
    decode (b0 :: rest) = .ok (i, rest) := by
  simp [decode, h]

theorem decode_of_lookup_f1 {mk : Byte → Instr} (h : lookup b0 = some (.f1 mk)) (b1 : Byte) (rest : List Byte) :
    decode (b0 :: b1 :: rest) = .ok (mk b1, rest) := by
  simp [decode, h]

theorem decode_of_lookup_f2 {mk : Byte → Byte → Instr} (h : lookup b0 = some (.f2 mk)) (b1 b2 : Byte)
    (rest : List Byte) : decode (b0 :: b1 :: b2 :: rest) = .ok (mk b1 b2, rest) := by
  simp [decode, h]

theorem encode_eq_cons {l : List Byte} (h : i.opcode = b0 ∧ i.operands = l) : encode i = b0 :: l := by
  rw [encode, h.1, h.2]

/-- The inversion of `decode` (R82, R93): in each format the shape's instruction has the bytes read as its own. -/
theorem eq_encode_append_of_decode (h : decode bytes = .ok (i, rest)) : bytes = encode i ++ rest := by
  unfold decode at h
  split at h
  · cases h
  next b0 tail =>
    split at h
    · cases h
    next j hl =>
      cases h
      rw [encode_eq_cons (lookup_spec hl).1]; rfl
    next mk hl =>
      split at h <;> cases h
      next b1 => rw [encode_eq_cons ((lookup_spec hl).1 b1)]; rfl
    next mk hl =>
      split at h <;> cases h
      next b1 b2 => rw [encode_eq_cons ((lookup_spec hl).1 b1 b2)]; rfl

theorem head?_of_decode (h : decode bytes = .ok (i, rest)) : bytes.head? = some i.opcode := by
  rw [eq_encode_append_of_decode h]; rfl

theorem length_sub_of_decode (h : decode bytes = .ok (i, rest)) :
    bytes.length - rest.length = (encode i).length := by
  rw [eq_encode_append_of_decode h, List.length_append, Nat.add_sub_cancel]

end

/-- The length of an instruction is a function of its opcode byte (R80). -/
theorem length_encode_of_opcode_eq {i j : Instr} (h : i.opcode = j.opcode) :
    (encode i).length = (encode j).length := by
  obtain ⟨-, hi, -⟩ := Laws.EncodedForm.form i
  obtain ⟨-, hj, -⟩ := Laws.EncodedForm.form j
  rw [hi, hj, h]

/-- Settles O4: the bytes taken are the encoding of the instruction read, whose length its opcode byte fixes, and that
opcode byte is the first byte. -/
theorem opcodeFixesLength : Obligations.OpcodeFixesLength := by
  intro bytes bytes' i j rest rest' hi hj
  obtain ⟨-, hlen, hle⟩ := Laws.EncodedForm.form i
  rw [length_sub_of_decode hi, length_sub_of_decode hj, head?_of_decode hi, head?_of_decode hj]
  exact ⟨by omega, hle, fun hop => length_encode_of_opcode_eq (Option.some.inj hop)⟩

/-- The 13 opcodes of R85, as the numbers R93 lists. -/
theorem knownOpcodes_map_toNat :
    Machine.knownOpcodes.map BitVec.toNat = [1, 17, 69, 70, 71, 80, 84, 85, 86, 130, 160, 162, 167] := rfl

/-- Settles O3: each row is what the opcode map answers for its byte, read through the rule of its format; a byte that
is none of the 13 has no answer in the map. -/
theorem opcodeMapIsTheTable : Obligations.OpcodeMapIsTheTable := by
  intro b1 b2 rest
  refine ⟨decode_of_lookup_f0 rfl _, decode_of_lookup_f0 rfl _,
    decode_of_lookup_f1 rfl _ _, decode_of_lookup_f1 rfl _ _, decode_of_lookup_f1 rfl _ _, decode_of_lookup_f1 rfl _ _,
    decode_of_lookup_f1 rfl _ _, decode_of_lookup_f1 rfl _ _, decode_of_lookup_f1 rfl _ _,
    decode_of_lookup_f2 rfl _ _ _, decode_of_lookup_f2 rfl _ _ _, decode_of_lookup_f2 rfl _ _ _,
    decode_of_lookup_f2 rfl _ _ _, fun b0 hb0 => decode_of_lookup_none ?_ rest⟩
  rw [← knownOpcodes_map_toNat] at hb0
  exact (lookup_eq_none_iff b0).mpr fun hmem => hb0 (List.mem_map_of_mem hmem)

end Sys2Proof
end

section
/-!
PROOFS. Register operands out of range (spec/30_encoding.md R83): the first bad operand byte decides the outcome of
`exec`, whatever the instruction.
-/

namespace Sys2Proof.Machine

theorem raisesOutOfBounds_raise (s : State) (b : Byte) (opcode : Option Byte) :
    RaisesOutOfBounds s (s.raise .outOfBounds .reg (zext9 b) opcode) .reg b.toNat :=
  ⟨rfl, rfl, toNat_zext9 b, rfl⟩

section
variable {i : Instr} {a b : Byte} {l : List Byte} (s : State)

theorem withRegs_of_le_of_gt {opcode : Byte} (ha : a.toNat ≤ 7) (hb : 7 < b.toNat) (k : Reg → Reg → Result) :
    withRegs opcode a b s k = .next (s.raise .outOfBounds .reg (zext9 b) (some opcode)) := by
  rw [withRegs, withReg_of_val (r := ⟨a.toNat, by omega⟩) rfl, withReg_of_gt hb]

/-- In every format with operands, byte 1 is a register and is validated first (R83, R115). -/
theorem exec_of_first_gt (hi : i.operands = b :: l) (hb : 7 < b.toNat) :
    exec i s = .next (s.raise .outOfBounds .reg (zext9 b) (some i.opcode)) := by
  cases i <;> cases hi <;> exact withReg_of_gt hb s _

/-- In format F2RR, byte 2 is a register too and is validated after byte 1 (R83, R115). -/
theorem exec_of_second_gt (hi : i.operands = [a, b]) (hop : i.opcode ∈ opcodesF2RR) (ha : a.toNat ≤ 7)
    (hb : 7 < b.toNat) : exec i s = .next (s.raise .outOfBounds .reg (zext9 b) (some i.opcode)) := by
  cases i <;> cases hi
  case ldi => simp [Instr.opcode, opcodesF2RR] at hop
  all_goals exact withRegs_of_le_of_gt s ha hb _

theorem exec_raises_of_first_gt (hi : i.operands = b :: l) (hb : 7 < b.toNat) :
    ∃ t, exec i s = .next t ∧ RaisesOutOfBounds s t .reg b.toNat :=
  ⟨_, exec_of_first_gt s hi hb, raisesOutOfBounds_raise s b _⟩

theorem exec_raises_of_second_gt (hi : i.operands = [a, b]) (hop : i.opcode ∈ opcodesF2RR) (ha : a.toNat ≤ 7)
    (hb : 7 < b.toNat) : ∃ t, exec i s = .next t ∧ RaisesOutOfBounds s t .reg b.toNat :=
  ⟨_, exec_of_second_gt s hi hop ha hb, raisesOutOfBounds_raise s b _⟩

end

/-- Settles O13: a listed instruction is used only through its operand bytes and, for a second operand, its format. -/
theorem illegalRegisterOperandsRaise : Obligations.IllegalRegisterOperandsRaise := by
  refine ⟨fun b hb => ⟨_, regIdx_of_le hb, rfl⟩, fun s => ⟨fun b hb i hi => ?_, fun b c hb i hi => ?_,
    fun a b ha hb i hi => ?_⟩⟩
  · have operands : ∀ i ∈ [Instr.push b, .pop b, .prn b, .call b, .jmp b, .jeq b, .jne b], i.operands = [b] := by
      simp [Instr.operands]
    exact exec_raises_of_first_gt s (operands i hi) hb
  · have operands : ∀ i ∈ [Instr.ldi b c, .add b c, .mul b c, .cmp b c], i.operands = [b, c] := by
      simp [Instr.operands]
    exact exec_raises_of_first_gt s (operands i hi) hb
  · have format : ∀ i ∈ [Instr.add a b, .mul a b, .cmp a b], i.operands = [a, b] ∧ i.opcode ∈ opcodesF2RR := by
      simp [Instr.operands, Instr.opcode, opcodesF2RR]
    obtain ⟨hops, hop⟩ := format i hi
    exact exec_raises_of_second_gt s hops hop ha hb

end Sys2Proof.Machine
end

section
/-!
PROOFS. A whole rule of format F2RR (spec/30_encoding.md R81; spec/40_execution_cycle.md R117): the fetch and operand
faults are the format's, so an instruction has its rule as soon as `exec` has its effect on valid registers.
-/

namespace Sys2Proof.Machine

theorem raisesOutOfBounds_raise_mem (s : State) (opcode : Option Byte) :
    RaisesOutOfBounds s (s.raise .outOfBounds .mem 256 opcode) .mem 256 :=
  ⟨rfl, rfl, rfl, rfl⟩

section
variable {s : State} {mk : Byte → Byte → Instr}

theorem step_raises_of_f2_short (hr : s.run = .running) (hp : s.pc.toNat = 254 ∨ s.pc.toNat = 255)
    (hl : lookup (s.byteAtPc 0) = some (.f2 mk)) : ∃ t, step s = .next t ∧ RaisesOutOfBounds s t .mem 256 := by
  refine ⟨_, ?_, raisesOutOfBounds_raise_mem s (some (s.byteAtPc 0))⟩
  rw [step_of_running hr, cycle, fetch_f2_short hp hl]

/-- The four outcomes exclude each other: the checks of R117 in their order, then the instruction's own effect. -/
theorem ruleF2RR_of_exec {op : Byte} {post : State → Reg → Reg → State → Prop} (hl : lookup op = some (.f2 mk))
    (hop : op ∈ opcodesF2RR)
    (hexec : ∀ (a b : Byte) (ra rb : Reg), a.toNat = ra.val → b.toNat = rb.val →
      ∃ t, exec (mk a b) s = .next t ∧ post s ra rb t) : RuleF2RR op post s := by
  rintro ⟨hr, hp, rfl⟩
  by_cases hshort : 254 ≤ s.pc.toNat
  · obtain ⟨t, ht, hraise⟩ := step_raises_of_f2_short hr (by omega) hl
    exact ⟨t, ht, fun _ => hraise, by omega, by omega, by omega⟩
  rw [step_of_fetch hr (fetch_f2 (by omega) hl)]
  obtain ⟨hopcode, hoperands⟩ := (lookup_spec hl).1 (s.byteAtPc 1) (s.byteAtPc 2)
  by_cases h1 : 7 < (s.byteAtPc 1).toNat
  · obtain ⟨t, ht, hraise⟩ := exec_raises_of_first_gt s hoperands h1
    exact ⟨t, ht, by omega, fun _ _ => hraise, by omega, by omega⟩
  by_cases h2 : 7 < (s.byteAtPc 2).toNat
  · obtain ⟨t, ht, hraise⟩ := exec_raises_of_second_gt s hoperands (hopcode ▸ hop) (by omega) h2
    exact ⟨t, ht, by omega, by omega, fun _ _ _ => hraise, by omega⟩
  obtain ⟨ra, ha⟩ : ∃ ra : Reg, (s.byteAtPc 1).toNat = ra.val := ⟨⟨(s.byteAtPc 1).toNat, by omega⟩, rfl⟩
  obtain ⟨rb, hb⟩ : ∃ rb : Reg, (s.byteAtPc 2).toNat = rb.val := ⟨⟨(s.byteAtPc 2).toNat, by omega⟩, rfl⟩
  obtain ⟨t, ht, hpost⟩ := hexec _ _ ra rb ha hb
  refine ⟨t, ht, by omega, by omega, by omega, fun ra' rb' _ ha' hb' => ?_⟩
  obtain rfl : ra = ra' := Fin.ext (ha.symm.trans ha')
  obtain rfl : rb = rb' := Fin.ext (hb.symm.trans hb')
  exact hpost

end

end Sys2Proof.Machine
end

section
/-!
PROOFS. The arithmetic instructions (spec/41_arithmetic.md): ADD and MUL write a narrowed result to one register and
advance.
-/

namespace Sys2Proof.Machine

theorem toNat_narrow (n : Nat) : (narrow n).toNat = n % 256 := BitVec.toNat_ofNat n 8

theorem frameBut_setX_advance (s : State) (r : Reg) (v : Byte) (n : Nat) :
    FrameBut s ((s.setX r v).advance n) [r] [] := by
  refine ⟨fun q hq => ?_, fun _ _ => rfl, rfl, rfl, rfl, rfl, rfl⟩
  rw [State.x_advance, State.x_setX, if_neg (List.ne_of_not_mem_cons hq)]

/-- What `aluInto` leaves when the operation's exact result is `n` (R130, R131, R132). -/
theorem setX_narrow_advance_post (s : State) (r : Reg) (n : Nat) :
    (((s.setX r (narrow n)).advance 3).x r).toNat = n % 256 ∧ ((s.setX r (narrow n)).advance 3).pc = s.pc + 3 ∧
      FrameBut s ((s.setX r (narrow n)).advance 3) [r] [] := by
  refine ⟨?_, rfl, frameBut_setX_advance s r _ 3⟩
  rw [State.x_advance, State.x_setX_self, toNat_narrow]

section
variable (s : State) (a b : Byte) (ra rb : Reg) (ha : a.toNat = ra.val) (hb : b.toNat = rb.val)
include ha hb

theorem execAdd_post : ∃ t, exec (.add a b) s = .next t ∧ PostAdd s ra rb t :=
  ⟨_, execAdd_eq s ha hb, setX_narrow_advance_post s ra _⟩

theorem execMul_post : ∃ t, exec (.mul a b) s = .next t ∧ PostMul s ra rb t :=
  ⟨_, execMul_eq s ha hb, setX_narrow_advance_post s ra _⟩

end

/-- Settles O41: ADD's effect on valid registers, and with it the rule of its format. -/
theorem addRule : Obligations.AddRule := fun s =>
  ⟨execAdd_post s, ruleF2RR_of_exec rfl (by decide) (execAdd_post s)⟩

/-- Settles O42: MUL's effect on valid registers, and with it the rule of its format. -/
theorem mulRule : Obligations.MulRule := fun s =>
  ⟨execMul_post s, ruleF2RR_of_exec rfl (by decide) (execMul_post s)⟩

end Sys2Proof.Machine
end

section
/-!
PROOFS. A whole rule of format F2RI (spec/30_encoding.md R81, R84; spec/40_execution_cycle.md R117), and LDI
(spec/42_data_movement.md), the one instruction of that format.
-/

namespace Sys2Proof.Machine

/-- The three outcomes exclude each other: the fetch's checks, the check of the register operand, then the instruction's
own effect, which takes byte 2 as it stands. -/
theorem ruleF2RI_of_exec {s : State} {mk : Byte → Byte → Instr} {op : Byte} {post : State → Reg → Byte → State → Prop}
    (hl : lookup op = some (.f2 mk))
    (hexec : ∀ (b imm : Byte) (r : Reg), b.toNat = r.val → ∃ t, exec (mk b imm) s = .next t ∧ post s r imm t) :
    RuleF2RI op post s := by
  rintro ⟨hr, hp, rfl⟩
  by_cases hshort : 254 ≤ s.pc.toNat
  · obtain ⟨t, ht, hraise⟩ := step_raises_of_f2_short hr (by omega) hl
    exact ⟨t, ht, fun _ => hraise, by omega, by omega⟩
  rw [step_of_fetch hr (fetch_f2 (by omega) hl)]
  by_cases hgt : 7 < (s.byteAtPc 1).toNat
  · obtain ⟨-, hoperands⟩ := (lookup_spec hl).1 (s.byteAtPc 1) (s.byteAtPc 2)
    obtain ⟨t, ht, hraise⟩ := exec_raises_of_first_gt s hoperands hgt
    exact ⟨t, ht, by omega, fun _ _ => hraise, by omega⟩
  obtain ⟨r, hb⟩ : ∃ r : Reg, (s.byteAtPc 1).toNat = r.val := ⟨⟨(s.byteAtPc 1).toNat, by omega⟩, rfl⟩
  obtain ⟨t, ht, hpost⟩ := hexec _ (s.byteAtPc 2) r hb
  refine ⟨t, ht, by omega, by omega, fun r' _ hb' => ?_⟩
  obtain rfl : r = r' := Fin.ext (hb.symm.trans hb')
  exact hpost

theorem execLdi_post (s : State) (b imm : Byte) (r : Reg) (h : b.toNat = r.val) :
    ∃ t, exec (.ldi b imm) s = .next t ∧ PostLdi s r imm t := by
  refine ⟨_, execLdi_eq s h, ?_, rfl, frameBut_setX_advance s r imm 3⟩
  rw [State.x_advance, State.x_setX_self]

/-- Settles O43: LDI's effect on a valid register, and with it the rule of its format. -/
theorem ldiRule : Obligations.LdiRule := fun s => ⟨execLdi_post s, ruleF2RI_of_exec rfl (execLdi_post s)⟩

end Sys2Proof.Machine
end

section
/-!
PROOFS. A whole rule of format F1R (spec/30_encoding.md R81; spec/40_execution_cycle.md R117): the fetch and operand
faults are the format's, so an instruction has its rule as soon as `exec` has its effect on a valid register.
-/

namespace Sys2Proof.Machine

section
variable {s : State} {mk : Byte → Instr}

theorem step_raises_of_f1_short (hr : s.run = .running) (hp : s.pc.toNat = 255)
    (hl : lookup (s.byteAtPc 0) = some (.f1 mk)) : ∃ t, step s = .next t ∧ RaisesOutOfBounds s t .mem 256 := by
  refine ⟨_, ?_, raisesOutOfBounds_raise_mem s (some (s.byteAtPc 0))⟩
  rw [step_of_running hr, cycle, fetch_f1_short hp hl]

/-- The three outcomes exclude each other: the fetch's check, the check of the register operand, then the instruction's
own effect. -/
theorem ruleF1R_of_exec {op : Byte} {post : State → Reg → State → Prop} (hl : lookup op = some (.f1 mk))
    (hexec : ∀ (b : Byte) (r : Reg), b.toNat = r.val → ∃ t, exec (mk b) s = .next t ∧ post s r t) :
    RuleF1R op post s := by
  rintro ⟨hr, hp, rfl⟩
  by_cases hshort : s.pc.toNat = 255
  · obtain ⟨t, ht, hraise⟩ := step_raises_of_f1_short hr hshort hl
    exact ⟨t, ht, fun _ => hraise, by omega, by omega⟩
  rw [step_of_fetch hr (fetch_f1 (by omega) hl)]
  by_cases hgt : 7 < (s.byteAtPc 1).toNat
  · obtain ⟨-, hoperands⟩ := (lookup_spec hl).1 (s.byteAtPc 1)
    obtain ⟨t, ht, hraise⟩ := exec_raises_of_first_gt s hoperands hgt
    exact ⟨t, ht, by omega, fun _ _ => hraise, by omega⟩
  obtain ⟨r, hb⟩ : ∃ r : Reg, (s.byteAtPc 1).toNat = r.val := ⟨⟨(s.byteAtPc 1).toNat, by omega⟩, rfl⟩
  obtain ⟨t, ht, hpost⟩ := hexec _ r hb
  refine ⟨t, ht, by omega, by omega, fun r' _ hb' => ?_⟩
  obtain rfl : r = r' := Fin.ext (hb.symm.trans hb')
  exact hpost

end

end Sys2Proof.Machine
end

section
/-!
PROOFS. The jumps (spec/44_control_transfer.md): JMP, JEQ and JNE write `pc` and nothing else.
-/

namespace Sys2Proof.Machine

theorem frameBut_setPc (s : State) (p : Pc) : FrameBut s (s.setPc p) [] [] :=
  ⟨fun _ _ => rfl, fun _ _ => rfl, rfl, rfl, rfl, rfl, rfl⟩

/-- What `branchIf` leaves (R164, R165): the two conditional jumps differ only in when the jump is taken. -/
theorem branch_post (s : State) (r : Reg) (taken : Bool) :
    let t := if taken then s.jumpTo (s.x r) else s.advance 2
    (taken = true → t.pc.toNat = (s.x r).toNat) ∧ (taken = false → t.pc = s.pc + 2) ∧ FrameBut s t [] [] := by
  cases taken with
  | true => exact ⟨fun _ => toNat_zext9 _, nofun, frameBut_setPc s _⟩
  | false => exact ⟨nofun, fun _ => rfl, frameBut_setPc s _⟩

section
variable (s : State) (b : Byte) (r : Reg) (h : b.toNat = r.val)
include h

theorem execJmp_post : ∃ t, exec (.jmp b) s = .next t ∧ PostJmp s r t :=
  ⟨_, execJmp_eq s h, toNat_zext9 _, frameBut_setPc s _⟩

theorem execJeq_post : ∃ t, exec (.jeq b) s = .next t ∧ PostJeq s r t :=
  ⟨_, execJeq_eq s h, branch_post s r s.flags.equal⟩

/-- JNE jumps where the Equal flag is clear, so its two cases are those of `branch_post` for the negated flag. -/
theorem execJne_post : ∃ t, exec (.jne b) s = .next t ∧ PostJne s r t := by
  obtain ⟨hjump, hnext, hframe⟩ := branch_post s r (!s.flags.equal)
  exact ⟨_, execJne_eq s h, fun he => hjump (by simp [he]), fun he => hnext (by simp [he]), hframe⟩

end

/-- Settles O49: JMP's effect on a valid register, and with it the rule of its format. -/
theorem jmpRule : Obligations.JmpRule := fun s => ⟨execJmp_post s, ruleF1R_of_exec rfl (execJmp_post s)⟩

/-- Settles O50: JEQ's effect on a valid register, and with it the rule of its format. -/
theorem jeqRule : Obligations.JeqRule := fun s => ⟨execJeq_post s, ruleF1R_of_exec rfl (execJeq_post s)⟩

/-- Settles O51: JNE's effect on a valid register, and with it the rule of its format. -/
theorem jneRule : Obligations.JneRule := fun s => ⟨execJne_post s, ruleF1R_of_exec rfl (execJne_post s)⟩

end Sys2Proof.Machine
end

section
/-!
PROOFS. The end of a run (spec/60_exceptions.md R208): a core that has left RUNNING answers itself to every step.
-/

namespace Sys2Proof.Machine

/-- One step of a machine behind the host's interface, then the rest of the run. -/
theorem run_succ_of_step {M : Host.Core} {s t : M.State} (h : M.step s = .next t) (k : Nat) :
    M.run (k + 1) s = M.run k t := by
  rw [Host.Core.run, h]

/-- Settles O9, by induction on the number of steps: each answers the state it started from (R111, decision D19). -/
theorem terminalStatesAreFinal : Obligations.TerminalStatesAreFinal := by
  intro s k hr
  induction k with
  | zero => rfl
  | succ k ih => exact (run_succ_of_step (M := core) (step_of_not_running hr) k).trans ih

end Sys2Proof.Machine
end

section
/-!
PROOFS. A byte outside the opcode table (spec/60_exceptions.md R205): the strict fault and the lenient skip.
-/

namespace Sys2Proof.Machine

/-- The step over an unknown byte is that byte's meaning (R119): no operand is fetched. -/
theorem step_of_unknown {s : State} (hr : s.run = .running) (hp : s.pc.toNat ≤ 255)
    (hk : s.byteAtPc 0 ∉ knownOpcodes) :
    step s = .next (if s.strictDecode then s.raise .unknownOpcode .mem s.pc (some (s.byteAtPc 0)) else s.advance 1) := by
  rw [step_of_running hr, cycle, fetch_unknown hp ((lookup_eq_none_iff _).mpr hk)]
  exact unknownOpcode_eq _ s

/-- Settles O12, by the two values of the strap: the record of the strict fault is the one `raise` writes, and the
lenient skip moves `pc` alone, to 256 at most, so the addition does not wrap. -/
theorem unknownOpcodeInBothModes : Obligations.UnknownOpcodeInBothModes := by
  intro s hr hp hk
  rw [step_of_unknown hr hp hk]
  cases s.strictDecode with
  | true => exact ⟨_, rfl, fun _ => ⟨rfl, rfl, rfl, rfl, rfl⟩, nofun⟩
  | false =>
    have hpc : (s.advance 1).pc.toNat = s.pc.toNat + 1 := toNat_pc_add (by omega)
    exact ⟨_, rfl, nofun, fun _ => ⟨hr, hpc, frameBut_setPc s _⟩⟩

end Sys2Proof.Machine
end

section
/-!
PROOFS. The encoding (spec/30_encoding.md R81, R85, R93): decoding undoes encoding, and what that says of bytes that
decode.
-/

namespace Sys2Proof

/-- Every instruction is what the shape of its opcode makes of its operand bytes: the three formats of R81. -/
theorem lookup_opcode_cases (i : Instr) :
    lookup i.opcode = some (.f0 i) ∨ (∃ mk b, lookup i.opcode = some (.f1 mk) ∧ i = mk b) ∨
      ∃ mk b c, lookup i.opcode = some (.f2 mk) ∧ i = mk b c := by
  cases i with
  | halt | ret => exact .inl rfl
  | push b | pop b | prn b | call b | jmp b | jeq b | jne b => exact .inr (.inl ⟨_, b, rfl, rfl⟩)
  | ldi b c | add b c | mul b c | cmp b c => exact .inr (.inr ⟨_, b, c, rfl, rfl⟩)

/-- An instruction is read back from its own bytes, whatever follows them. -/
theorem decode_encode_append (i : Instr) (rest : List Byte) : decode (encode i ++ rest) = .ok (i, rest) := by
  obtain hl | ⟨mk, b, hl, rfl⟩ | ⟨mk, b, c, hl, rfl⟩ := lookup_opcode_cases i
  · rw [encode_eq_cons (lookup_spec hl).1]
    exact decode_of_lookup_f0 hl rest
  · rw [encode_eq_cons ((lookup_spec hl).1 b)]
    exact decode_of_lookup_f1 hl b rest
  · rw [encode_eq_cons ((lookup_spec hl).1 b c)]
    exact decode_of_lookup_f2 hl b c rest

/-- Settles O1: encodings are unambiguous because `decode` is a function that undoes both. -/
theorem decodeOfEncodeIsTheInstruction : Obligations.DecodeOfEncodeIsTheInstruction := by
  refine ⟨decode_encode_append, fun i j rest rest' h => ?_⟩
  have hdecode : (.ok (i, rest) : Except DecodeError _) = .ok (j, rest') := by
    rw [← decode_encode_append i rest, h, decode_encode_append]
  cases hdecode
  exact ⟨rfl, rfl⟩

/-- Settles O2: this is the inversion of `decode`. -/
theorem decodeAcceptsOnlyEncodings : Obligations.DecodeAcceptsOnlyEncodings :=
  fun _ _ _ => eq_encode_append_of_decode

theorem decodeTableWord_of_tableBytes {nbits w : Nat} {i : Instr} {rest : List Byte}
    (h : tableBytes nbits w = encode i ++ rest) : decodeTableWord nbits w = some i := by
  rw [decodeTableWord, h, decode_encode_append]

/-- Settles O5: each word's bytes begin with the encoding of its instruction; 0 is none of the 13 opcodes. -/
theorem tableWordsDecode : Obligations.TableWordsDecode :=
  ⟨decodeTableWord_of_tableBytes (rest := [0, 0]) rfl, decodeTableWord_of_tableBytes (rest := [0]) rfl,
    decodeTableWord_of_tableBytes (rest := [0]) rfl, decodeTableWord_of_tableBytes (rest := [0]) rfl,
    decodeTableWord_of_tableBytes (rest := []) rfl, decodeTableWord_of_tableBytes (rest := []) rfl,
    decodeTableWord_of_tableBytes (rest := []) rfl, rfl⟩

end Sys2Proof
end

section
/-!
PROOFS. The fetch and the decoder (spec/40_execution_cycle.md R110; spec/20_memory.md R54, R63): the fetch finds an
instruction exactly where the bytes from `pc` on decode to it.
-/

namespace Sys2Proof.Machine

section
variable {s : State} {i : Instr} {rest : List Byte}

/-- The converse of `fetch_instr`: an instruction whose bytes stand at `pc` is the one fetched. -/
theorem fetch_of_encode_eq (hp : s.pc.toNat + (encode i).length ≤ 256)
    (hb : encode i = (List.range (encode i).length).map s.byteAtPc) : fetch s = .instr i := by
  obtain hl | ⟨mk, b, hl, rfl⟩ | ⟨mk, b, c, hl, rfl⟩ := lookup_opcode_cases i
  · obtain ⟨-, hops⟩ := (lookup_spec hl).1
    simp only [encode, hops, List.length_cons, List.length_nil] at hp hb
    obtain ⟨h0, -⟩ := List.cons.inj hb
    exact fetch_f0 (by omega) (h0 ▸ hl)
  · obtain ⟨-, hops⟩ := (lookup_spec hl).1 b
    simp only [encode, hops, List.length_cons, List.length_nil] at hp hb
    obtain ⟨h0, hb⟩ := List.cons.inj hb
    obtain ⟨h1, -⟩ := List.cons.inj hb
    rw [h0] at hl
    exact h1 ▸ fetch_f1 (by omega) hl
  · obtain ⟨-, hops⟩ := (lookup_spec hl).1 b c
    simp only [encode, hops, List.length_cons, List.length_nil] at hp hb
    obtain ⟨h0, hb⟩ := List.cons.inj hb
    obtain ⟨h1, hb⟩ := List.cons.inj hb
    obtain ⟨h2, -⟩ := List.cons.inj hb
    rw [h0] at hl
    exact h1 ▸ h2 ▸ fetch_f2 (by omega) hl

theorem length_bytesFrom (s : State) (a : Nat) : (s.bytesFrom a).length = 256 - a := by
  simp [State.bytesFrom, Config.memSize]

/-- The bytes from `pc` on, cut after the first `n`. -/
theorem bytesFrom_pc_eq_append {n : Nat} (h : s.pc.toNat + n ≤ 256) :
    s.bytesFrom s.pc.toNat = (List.range n).map s.byteAtPc ++ s.bytesFrom (s.pc.toNat + n) := by
  have hcut : Config.memSize - s.pc.toNat = n + (Config.memSize - (s.pc.toNat + n)) := by
    simp only [Config.memSize]; omega
  rw [State.bytesFrom, hcut, ← List.range'_append_1, List.map_append, List.range'_eq_map_range, List.map_map]
  rfl

theorem decode_bytesFrom_of_fetch (h : fetch s = .instr i) :
    decode (s.bytesFrom s.pc.toNat) = .ok (i, s.bytesFrom (s.pc.toNat + (encode i).length)) := by
  obtain ⟨-, hp, hb⟩ := fetch_instr h
  rw [bytesFrom_pc_eq_append hp, ← hb, decode_encode_append]

theorem fetch_of_decode (h : decode (s.bytesFrom s.pc.toNat) = .ok (i, rest)) : fetch s = .instr i := by
  have hbytes : s.bytesFrom s.pc.toNat = encode i ++ rest := eq_encode_append_of_decode h
  have hlen := congrArg List.length hbytes
  rw [length_bytesFrom, List.length_append] at hlen
  have hp : s.pc.toNat + (encode i).length ≤ 256 := by
    simp only [encode, List.length_cons] at hlen ⊢
    omega
  rw [bytesFrom_pc_eq_append hp] at hbytes
  exact fetch_of_encode_eq hp (List.append_inj_left hbytes (by simp)).symm

/-- Bytes placed at `pc`, where they fit, are the bytes there. -/
theorem byteAtPc_placeAtPc {bytes : List Byte} (h : s.pc.toNat + bytes.length ≤ 256) {k : Nat}
    (hk : k < bytes.length) : (s.placeAtPc bytes).byteAtPc k = bytes[k] := by
  have hfit : bytes.take (Config.memSize - s.pc.toNat) = bytes :=
    List.take_of_length_le (by simp only [Config.memSize]; omega)
  simp only [State.byteAtPc, State.placeAtPc, hfit, Memory.read_writeList, Nat.le_add_right, Nat.add_sub_cancel_left,
    hk, and_self, dite_true]

theorem fetch_placeAtPc (h : s.pc.toNat + (encode i).length ≤ 256) : fetch (s.placeAtPc (encode i)) = .instr i := by
  refine fetch_of_encode_eq h (List.ext_getElem (by simp) fun k hk _ => ?_)
  rw [List.getElem_map, List.getElem_range, byteAtPc_placeAtPc h hk]

end

/-- Settles O6: the fetch finds what was placed, and a RUNNING core executes what it fetches. -/
theorem storedInstructionIsExecuted : Obligations.StoredInstructionIsExecuted :=
  fun _ _ h => step_of_fetch rfl (fetch_placeAtPc h)

/-- Settles O7: the decoder and the fetch agree on the bytes from `pc` on. -/
theorem stepRunsTheDecodedInstruction : Obligations.StepRunsTheDecodedInstruction :=
  fun _ _ _ hr h => step_of_fetch hr (fetch_of_decode h)

end Sys2Proof.Machine
end

section
/-!
PROOFS. The causes of a fault (spec/60_exceptions.md R202, R203; spec/40_execution_cycle.md R117): a RUNNING core faults
exactly where a listed cause holds, and each fault statement is read off that cause's record.
-/

namespace Sys2Proof.Machine

section
variable {s t : State} {f : FaultRecord}

/-! ### From a cause to the step -/

theorem step_of_fetch_outOfRange {opcode : Option Byte} {addr : BitVec 9} (hr : s.run = .running)
    (h : fetch s = .outOfRange opcode addr) : step s = .next (s.raise .outOfBounds .mem addr opcode) := by
  rw [step_of_running hr, cycle, h]

/-- A two-operand instruction at `pc` whose bytes fit is fetched with the opcode and operands that stand there. -/
theorem fetch_f2_of_mem (hp : s.pc.toNat ≤ 253) (ho : s.byteAtPc 0 ∈ opcodesF2RI ++ opcodesF2RR) :
    ∃ i : Instr, fetch s = .instr i ∧ i.opcode = s.byteAtPc 0 ∧ i.operands = [s.byteAtPc 1, s.byteAtPc 2] := by
  obtain ⟨mk, hl⟩ := lookup_of_f2 ho
  exact ⟨_, fetch_f2 hp hl, (lookup_spec hl).1 _ _⟩

/-- Where a cause holds the step is fault entry with its record (R203). -/
theorem step_of_faultCause (hr : s.run = .running) (hc : FaultCause s f) :
    step s = .next { s with run := .faulted, fault := f } := by
  cases hc with
  | opcodeFetch h => exact step_of_fetch_outOfRange hr (fetch_past_end h)
  | unknownOpcode h hs ho => rw [step_of_unknown hr h ho, if_pos hs]; rfl
  | firstOperandFetch h ho =>
    rw [List.append_assoc, List.mem_append] at ho
    obtain ho | ho := ho
    · obtain ⟨mk, hl⟩ := lookup_of_f1r ho
      exact step_of_fetch_outOfRange hr (fetch_f1_short h hl)
    · obtain ⟨mk, hl⟩ := lookup_of_f2 ho
      exact step_of_fetch_outOfRange hr (fetch_f2_short (.inr h) hl)
  | secondOperandFetch h ho =>
    obtain ⟨mk, hl⟩ := lookup_of_f2 ho
    exact step_of_fetch_outOfRange hr (fetch_f2_short (.inl h) hl)
  | onlyRegister h ho hb =>
    obtain ⟨mk, hl⟩ := lookup_of_f1r ho
    obtain ⟨hop, hops⟩ := (lookup_spec hl).1 (s.byteAtPc 1)
    rw [step_of_fetch hr (fetch_f1 h hl), exec_of_first_gt s hops hb, hop]
    rfl
  | firstRegister h ho hb =>
    obtain ⟨i, hf, hop, hops⟩ := fetch_f2_of_mem h ho
    rw [step_of_fetch hr hf, exec_of_first_gt s hops hb, hop]
    rfl
  | secondRegister h ho ha hb =>
    obtain ⟨i, hf, hop, hops⟩ := fetch_f2_of_mem h (List.mem_append_right _ ho)
    rw [step_of_fetch hr hf, exec_of_second_gt s hops (hop ▸ ho) ha hb, hop]
    rfl
  | returnAddress h ho hb =>
    have hl : lookup (s.byteAtPc 0) = some (.f1 .call) := by rw [ho]; rfl
    rw [step_of_fetch hr (fetch_f1 (by omega) hl), execCall_eq (r := ⟨_, Nat.lt_succ_of_le hb⟩) s rfl,
      if_pos (by omega), h, ho]
    rfl

theorem faultedWith_of_faultCause (hr : s.run = .running) (hc : FaultCause s f) (ht : step s = .next t) :
    FaultedWith s t f := by
  rw [step_of_faultCause hr hc] at ht
  cases ht
  rfl

theorem run_of_faultedWith (h : FaultedWith s t f) : t.run = .faulted := by rw [h]

theorem fault_of_faultedWith (h : FaultedWith s t f) : t.fault = f := by rw [h]

/-! ### From a step to its cause -/

/-- The operand bytes of a fetched instruction are the bytes after `pc`, and its opcode is of the format with as many
operands. -/
theorem operands_of_fetch {i : Instr} (h : fetch s = .instr i) :
    (i.operands = [] ∧ s.byteAtPc 0 ∈ opcodesF0) ∨
    (s.pc.toNat ≤ 254 ∧ i.operands = [s.byteAtPc 1] ∧ s.byteAtPc 0 ∈ opcodesF1R) ∨
    (s.pc.toNat ≤ 253 ∧ i.operands = [s.byteAtPc 1, s.byteAtPc 2] ∧ s.byteAtPc 0 ∈ opcodesF2RI ++ opcodesF2RR) := by
  have hc := fetch_cases s
  rw [h] at hc
  cases hc with
  | whole0 _ hp hl => exact .inl ⟨(lookup_spec hl).1.2, (lookup_spec hl).2⟩
  | whole1 mk hp hl => exact .inr (.inl ⟨hp, ((lookup_spec hl).1 _).2, (lookup_spec hl).2⟩)
  | whole2 mk hp hl => exact .inr (.inr ⟨hp, ((lookup_spec hl).1 _ _).2, (lookup_spec hl).2⟩)

/-- A fetched instruction whose effect is FAULTED has met one of the causes (e), (f), (g). -/
theorem faultCause_of_effect {i : Instr} (hr : s.run = .running) (hf : fetch s = .instr i) (he : Effect s i t)
    (ht : t.run = .faulted) : FaultCause s t.fault := by
  obtain ⟨hop, -, -⟩ := fetch_instr hf
  have hform := operands_of_fetch hf
  cases he with
  | badFirst _ b l hi hb =>
    rw [hi] at hform
    rw [State.raise_fault, hop]
    obtain ⟨hnil, -⟩ | ⟨hp, hops, ho⟩ | ⟨hp, hops, ho⟩ := hform
    · cases hnil
    · cases hops; exact .onlyRegister hp ho hb
    · cases hops; exact .firstRegister hp ho hb
  | badSecond _ a b hi hrr ha hb =>
    rw [hi] at hform
    rw [hop] at hrr
    rw [State.raise_fault, hop]
    obtain ⟨hnil, -⟩ | ⟨-, hops, -⟩ | ⟨hp, hops, -⟩ := hform
    · cases hnil
    · cases hops
    · cases hops; exact .secondRegister hp hrr ha hb
  | callFault b r h hp =>
    obtain ⟨hnil, -⟩ | ⟨hp', hops, -⟩ | ⟨-, hops, -⟩ := hform
    · cases hnil
    · cases hops
      have hpc : s.pc.toNat = 254 := by omega
      have hcause := FaultCause.returnAddress (s := s) hpc hop.symm (by have := r.isLt; omega)
      rw [State.raise_fault, hpc, show (0x50 : Byte) = s.byteAtPc 0 from hop]
      exact hcause
    · cases hops
  | halt => cases ht
  | jeq => split at ht <;> exact absurd (hr.symm.trans ht) nofun
  | jne => split at ht <;> exact absurd (hr.symm.trans ht) nofun
  | _ => exact absurd (hr.symm.trans ht) nofun

/-- A step from RUNNING to FAULTED has met a cause of R202 and wrote its record. -/
theorem faultCause_of_stepsTo (hr : s.run = .running) (h : StepsTo s t) (ht : t.run = .faulted) :
    FaultCause s t.fault := by
  cases h with
  | idle hn => exact absurd hr hn
  | opcodeFetch _ hp => exact .opcodeFetch hp
  | operandFetch _ hp =>
    obtain ⟨hp, ho⟩ | ⟨hp, ho⟩ := hp
    · exact .firstOperandFetch hp ho
    · exact .secondOperandFetch hp ho
  | unknown _ hp hl hs => exact .unknownOpcode hp hs hl
  | skip => exact absurd (hr.symm.trans ht) nofun
  | instr i _ _ hf _ _ _ he => exact faultCause_of_effect hr hf he ht

theorem faultCause_of_step (hr : s.run = .running) (h : step s = .next t) (ht : t.run = .faulted) :
    FaultCause s t.fault := faultCause_of_stepsTo hr (step_cases h) ht

/-! ### What a cause says of its record -/

theorem FaultCause.pc_eq (hc : FaultCause s f) : f.pc = s.pc := by cases hc <;> rfl

theorem FaultCause.kind_ne_unsupported (hc : FaultCause s f) : f.kind ≠ .unsupportedOperation := by
  cases hc <;> nofun

/-- The opcode is recorded unless its own fetch was out of range (D8). -/
theorem FaultCause.opcode_eq (hc : FaultCause s f) :
    (f.opcodeValid = true ∧ f.opcode = s.byteAtPc 0 ∧ s.pc.toNat ≤ 255) ∨
      (f.opcodeValid = false ∧ f.opcode = 0 ∧ 255 < s.pc.toNat) := by
  cases hc with
  | opcodeFetch h => exact .inr ⟨rfl, rfl, h⟩
  | unknownOpcode h => exact .inl ⟨rfl, rfl, h⟩
  | firstOperandFetch h | secondOperandFetch h | onlyRegister h | firstRegister h | secondRegister h
  | returnAddress h => exact .inl ⟨rfl, rfl, by omega⟩

end

/-- Settles O14: the causes and the machine agree in both directions. -/
theorem faultsExactlyOnTheListedCauses : Obligations.FaultsExactlyOnTheListedCauses := by
  intro s f hr
  constructor
  · intro hc
    exact ⟨_, step_of_faultCause hr hc, rfl, rfl, rfl⟩
  · rintro ⟨t, ht, hrun, rfl, -⟩
    exact faultCause_of_step hr ht hrun

/-- Settles O15: the cause met says what the step changed and what the record holds. -/
theorem faultingStepChangesOnlyRunAndRecord : Obligations.FaultingStepChangesOnlyRunAndRecord := by
  intro s t hr ht hrun
  have hc : FaultCause s t.fault := faultCause_of_step hr ht hrun
  refine ⟨faultedWith_of_faultCause hr hc ht, hc.pc_eq, fun hv => ?_, fun hv => ?_⟩
  · obtain ⟨-, h⟩ | ⟨hv', -⟩ := hc.opcode_eq
    · exact h
    · exact absurd (hv.symm.trans hv') nofun
  · obtain ⟨hv', -⟩ | ⟨-, h⟩ := hc.opcode_eq
    · exact absurd (hv'.symm.trans hv) nofun
    · exact h

/-- Settles O20: no listed cause has that kind. -/
theorem noStepRaisesUnsupportedOperation : Obligations.NoStepRaisesUnsupportedOperation :=
  fun _ _ hr ht hrun => (faultCause_of_step hr ht hrun).kind_ne_unsupported

/-- Settles O16: cause (a) at 256. -/
theorem opcodeFetchPastTheEndFaults : Obligations.OpcodeFetchPastTheEndFaults := by
  intro s hr hp
  have hc : FaultCause s ⟨.outOfBounds, s.pc, false, 0, .mem, s.pc⟩ := .opcodeFetch (by rw [hp]; decide)
  rw [hp] at hc
  exact ⟨_, step_of_faultCause hr hc, rfl⟩

/-- Settles O17: causes (c) and (d). -/
theorem operandFetchPastTheEndFaults : Obligations.OperandFetchPastTheEndFaults := by
  rintro s hr (⟨hp, ho⟩ | ⟨hp, ho⟩)
  · exact ⟨_, step_of_faultCause hr (.firstOperandFetch (congrArg BitVec.toNat hp) ho), rfl⟩
  · exact ⟨_, step_of_faultCause hr (.secondOperandFetch (congrArg BitVec.toNat hp) ho), rfl⟩

/-- A step that met a cause raised that cause's `OutOfBounds`. -/
theorem raisesOutOfBounds_of_faultCause {s t : State} {pc : Pc} {valid : Bool} {opcode : Byte} {space : FaultSpace}
    {index : BitVec 9} (hr : s.run = .running) (ht : step s = .next t)
    (hc : FaultCause s ⟨.outOfBounds, pc, valid, opcode, space, index⟩) :
    RaisesOutOfBounds s t space index.toNat := by
  have h := faultedWith_of_faultCause hr hc ht
  rw [RaisesOutOfBounds, fault_of_faultedWith h]
  exact ⟨rfl, rfl, rfl, h⟩

/-- Settles O18: in each example one cause holds, that of the first failing check of R117. -/
theorem firstFailingCheckIsReported : Obligations.FirstFailingCheckIsReported := by
  intro s hr
  obtain ⟨t, ht, -⟩ := step_effect s
  refine ⟨t, ht, fun hp hk hs => ?_, fun hp ho _ => ?_, fun hp ho h1 _ => ?_, fun hp ho h1 => ?_⟩
  · have hc := FaultCause.unknownOpcode (by rw [hp]; decide) hs hk
    rw [fault_of_faultedWith (faultedWith_of_faultCause hr hc ht)]
  · exact raisesOutOfBounds_of_faultCause hr ht
      (.secondOperandFetch (congrArg BitVec.toNat hp) (by rw [ho]; decide))
  · rw [← toNat_zext9]
    exact raisesOutOfBounds_of_faultCause hr ht (.firstRegister hp (by rw [ho]; decide) h1)
  · rw [← toNat_zext9]
    exact raisesOutOfBounds_of_faultCause hr ht (.onlyRegister (by rw [hp]; decide) (by rw [ho]; decide) h1)

end Sys2Proof.Machine
end

section
/-!
PROOFS. The remaining whole rules: PRN (spec/42_data_movement.md), PUSH and POP (spec/43_stack.md), CALL and RET
(spec/44_control_transfer.md), CMP (spec/45_comparison.md) and HALT (spec/40_execution_cycle.md R118). What each leaves
of registers and memory is the frame of the state operations it is made of.
-/

namespace Sys2Proof.Machine

/-! ### Format F0: no operand, so nothing to check after the opcode fetch -/

theorem ruleF0_of_exec {s : State} {i : Instr} {op : Byte} {post : State → State → Prop}
    (hl : lookup op = some (.f0 i)) (hexec : ∃ t, exec i s = .next t ∧ post s t) : RuleF0 op post s := by
  rintro ⟨hr, hp, rfl⟩
  rwa [step_of_fetch hr (fetch_f0 hp hl)]

theorem execHalt_post (s : State) : ∃ t, exec .halt s = .next t ∧ PostHalt s t := ⟨_, execHalt_eq s, rfl⟩

/-- Settles O53: HALT's effect, and with it the rule of its format. -/
theorem haltRule : Obligations.HaltRule := fun s => ⟨execHalt_post s, ruleF0_of_exec rfl (execHalt_post s)⟩

theorem sameRegsBut_incSp (s : State) : SameRegsBut s s.incSp [7] := fun q hq => by
  rw [State.x_incSp, if_neg (List.ne_of_not_mem_cons hq)]

theorem execRet_post (s : State) : ∃ t, exec .ret s = .next t ∧ PostRet s t :=
  ⟨_, execRet_eq s, toNat_zext9 _, s.sp_incSp, sameRegsBut_incSp s, fun _ _ => rfl, rfl, rfl, rfl, rfl, rfl⟩

/-- Settles O48: RET's effect, and with it the rule of its format. -/
theorem retRule : Obligations.RetRule := fun s => ⟨execRet_post s, ruleF0_of_exec rfl (execRet_post s)⟩

/-! ### PRN, PUSH and POP -/

/-- The state after a byte is pushed (R150, R151, R161). -/
def State.pushed (s : State) (v : Byte) : State := s.decSp.writeByte s.decSp.sp v

theorem State.mem_pushed (s : State) (v : Byte) : (s.pushed v).mem = s.mem.write (s.sp - 1).toNat v := by
  rw [State.pushed, State.writeByte_mem, State.decSp_mem, State.sp_decSp]

theorem State.read_pushed_self (s : State) (v : Byte) : (s.pushed v).mem.read (s.sp - 1).toNat = v := by
  rw [State.mem_pushed, Memory.read_write_self]

/-- A push writes register 7 and the byte below the stack pointer. -/
theorem frameBut_pushed_setPc (s : State) (v : Byte) (p : Pc) :
    FrameBut s ((s.pushed v).setPc p) [7] [(s.sp - 1).toNat] := by
  refine ⟨fun q hq => ?_, fun a ha => ?_, rfl, rfl, rfl, rfl, rfl⟩
  · have hread : ((s.pushed v).setPc p).x q = s.decSp.x q := rfl
    rw [hread, State.x_decSp, if_neg (List.ne_of_not_mem_cons hq)]
  · rw [State.setPc_mem, State.mem_pushed, Memory.read_write_ne _ _ (List.ne_of_not_mem_cons ha)]

/-- A pop into `r` writes `r` and then register 7 (D10). -/
theorem sameRegsBut_setX_incSp (s : State) (r : Reg) (v : Byte) : SameRegsBut s (s.setX r v).incSp [r, 7] := by
  intro q hq
  simp only [List.mem_cons, List.not_mem_nil, or_false, not_or] at hq
  obtain ⟨hr, h7⟩ := hq
  rw [State.x_incSp, if_neg h7, State.x_setX, if_neg hr]

section
variable (s : State) (b : Byte) (r : Reg) (h : b.toNat = r.val)
include h

theorem execPrn_post : ∃ t, exec (.prn b) s = .next t ∧ PostPrn s r t :=
  ⟨_, execPrn_eq s h, rfl, rfl, fun _ _ => rfl, fun _ _ => rfl, rfl, rfl, rfl, rfl⟩

theorem execPush_post : ∃ t, exec (.push b) s = .next t ∧ PostPush s r t := by
  refine ⟨(s.pushed (s.decSp.x r)).advance 2, execPush_eq s h, s.sp_decSp, ?_, rfl, frameBut_pushed_setPc s _ _⟩
  rw [← State.x_decSp]
  exact s.read_pushed_self _

theorem execPop_post : ∃ t, exec (.pop b) s = .next t ∧ PostPop s r t := by
  refine ⟨_, execPop_eq s h, fun hr => ⟨?_, ?_⟩, ?_, rfl, sameRegsBut_setX_incSp s r _, fun _ _ => rfl, rfl, rfl, rfl,
    rfl, rfl⟩
  · rw [State.x_advance, State.x_incSp, if_neg hr, State.x_setX_self]
    rfl
  · rw [State.sp_advance, State.sp_incSp, State.sp_setX_of_ne s _ hr]
  · rintro rfl
    rw [State.sp_advance, State.sp_incSp, State.sp_setX_sp]
    rfl

end

/-- Settles O44: PRN's effect on a valid register, and with it the rule of its format. -/
theorem prnRule : Obligations.PrnRule := fun s => ⟨execPrn_post s, ruleF1R_of_exec rfl (execPrn_post s)⟩

/-- Settles O45: PUSH's effect on a valid register, and with it the rule of its format. -/
theorem pushRule : Obligations.PushRule := fun s => ⟨execPush_post s, ruleF1R_of_exec rfl (execPush_post s)⟩

/-- Settles O46: POP's effect on a valid register, and with it the rule of its format. -/
theorem popRule : Obligations.PopRule := fun s => ⟨execPop_post s, ruleF1R_of_exec rfl (execPop_post s)⟩

/-! ### CALL, whose return address is checked after its operand (D9) -/

section
variable (s : State) (b : Byte) (r : Reg) (h : b.toNat = r.val)
include h

theorem execCall_post (hp : s.pc.toNat ≤ 253) : ∃ t, exec (.call b) s = .next t ∧ PostCall s r t := by
  refine ⟨(s.pushed (narrow (s.pc.toNat + 2))).jumpTo (s.decSp.x r), (execCall_eq s h).trans (if_neg (by omega)),
    s.sp_decSp, ?_, ?_, frameBut_pushed_setPc s _ _⟩
  · calc _ = (narrow (s.pc.toNat + 2)).toNat := congrArg BitVec.toNat (s.read_pushed_self _)
      _ = s.pc.toNat + 2 := narrow_toNat (by omega)
  · rw [← State.x_decSp]
    exact toNat_zext9 _

theorem execCall_raises (hp : s.pc = 254) : ∃ t, exec (.call b) s = .next t ∧ RaisesOutOfBounds s t .mem 256 := by
  have hpc : s.pc.toNat = 254 := congrArg BitVec.toNat hp
  refine ⟨_, (execCall_eq s h).trans (if_pos (by omega)), ?_⟩
  rw [hpc]
  exact raisesOutOfBounds_raise_mem s _

/-- CALL at every address: past 254 no clause applies, and `exec` still answers (log entry 6). -/
theorem execCall_cases : ∃ t, exec (.call b) s = .next t ∧ (s.pc.toNat ≤ 253 → PostCall s r t) ∧
    (s.pc = 254 → RaisesOutOfBounds s t .mem 256) := by
  by_cases hp : s.pc.toNat ≤ 253
  · obtain ⟨t, ht, hpost⟩ := execCall_post s b r h hp
    exact ⟨t, ht, fun _ => hpost, fun h254 => by rw [h254] at hp; exact absurd hp (by decide)⟩
  by_cases h254 : s.pc = 254
  · obtain ⟨t, ht, hraise⟩ := execCall_raises s b r h h254
    exact ⟨t, ht, fun hp' => absurd hp' hp, fun _ => hraise⟩
  · obtain ⟨t, ht, -⟩ := exec_effect (.call b) s
    exact ⟨t, ht, fun hp' => absurd hp' hp, fun h' => absurd h' h254⟩

end

/-- Settles O47: CALL's two outcomes on a valid register, and with them the rule of its format. -/
theorem callRule : Obligations.CallRule := fun s =>
  ⟨fun b r h => ⟨execCall_post s b r h, execCall_raises s b r h⟩, ruleF1R_of_exec rfl (execCall_cases s)⟩

/-! ### CMP -/

/-- The three flags say how two bytes compare as unsigned numbers (D16). -/
theorem compareFlags_spec (a b : Byte) :
    ((compareFlags a b).equal = true ↔ a.toNat = b.toNat) ∧ ((compareFlags a b).less = true ↔ a.toNat < b.toNat) ∧
      ((compareFlags a b).greater = true ↔ b.toNat < a.toNat) := by
  obtain hlt | heq | hgt := Nat.lt_trichotomy a.toNat b.toNat
  · simp [compareFlags, hlt, hlt.ne, hlt.le]
  · simp [compareFlags, heq]
  · simp [compareFlags, hgt, hgt.ne', hgt.not_gt]

theorem execCmp_post (s : State) (a b : Byte) (ra rb : Reg) (ha : a.toNat = ra.val) (hb : b.toNat = rb.val) :
    ∃ t, exec (.cmp a b) s = .next t ∧ PostCmp s ra rb t := by
  obtain ⟨he, hl, hg⟩ := compareFlags_spec (s.x ra) (s.x rb)
  exact ⟨_, execCmp_eq s ha hb, he, hl, hg, rfl, fun _ _ => rfl, fun _ _ => rfl, rfl, rfl, rfl, rfl⟩

/-- Settles O52: CMP's effect on valid registers, and with it the rule of its format. -/
theorem cmpRule : Obligations.CmpRule := fun s =>
  ⟨execCmp_post s, ruleF2RR_of_exec rfl (by decide) (execCmp_post s)⟩

end Sys2Proof.Machine
end

section
/-!
PROOFS. What an instruction and a step can do to each part of the state, read once off `Effect` and `StepsTo`; and the
whole-machine rules on who writes the strap, the output, the flags, memory and the registers (spec/10_state.md R20, R31,
R37; spec/20_memory.md R56, R64).
-/

namespace Sys2Proof.Machine

theorem branch_eq_setPc (s : State) (taken : Bool) (b : Byte) :
    (if taken then s.jumpTo b else s.advance 2) = s.setPc (if taken then zext9 b else s.pc + BitVec.ofNat 9 2) := by
  cases taken <;> rfl

section
variable {s t : State} {i : Instr}

theorem Effect.strictDecode_eq (h : Effect s i t) : t.strictDecode = s.strictDecode := by
  cases h with
  | jeq | jne => rw [branch_eq_setPc]; rfl
  | _ => rfl

theorem Effect.out_eq (h : Effect s i t) : t.out = s.out ∨ (i.opcode = 0x47 ∧ ∃ v, t.out = s.out ++ [v]) := by
  cases h with
  | prn => exact .inr ⟨rfl, _, rfl⟩
  | jeq | jne => rw [branch_eq_setPc]; exact .inl rfl
  | _ => exact .inl rfl

theorem Effect.flags_eq (h : Effect s i t) :
    t.flags = s.flags ∨ (i.opcode = 0xA7 ∧ ∃ a b, t.flags = compareFlags a b) := by
  cases h with
  | cmp => exact .inr ⟨rfl, _, _, rfl⟩
  | jeq | jne => rw [branch_eq_setPc]; exact .inl rfl
  | _ => exact .inl rfl

theorem Effect.mem_eq (h : Effect s i t) :
    t.mem = s.mem ∨ ((i.opcode = 0x45 ∨ i.opcode = 0x50) ∧ ∃ v, t.mem = s.mem.write (s.sp - 1).toNat v) := by
  cases h with
  | push => exact .inr ⟨.inl rfl, _, s.mem_pushed _⟩
  | call => exact .inr ⟨.inr rfl, _, s.mem_pushed _⟩
  | jeq | jne => rw [branch_eq_setPc]; exact .inl rfl
  | _ => exact .inl rfl

theorem eq_of_x_setX_ne {r q : Reg} {v : Byte} (h : (s.setX r v).x q ≠ s.x q) : q = r :=
  of_not_not fun hqr => h (by rw [State.x_setX, if_neg hqr])

/-- A register an instruction changes is the one its first operand names, or the stack pointer. -/
theorem Effect.x_ne {q : Reg} (h : Effect s i t) (hq : t.x q ≠ s.x q) :
    (i.opcode ∈ [0x82, 0xA0, 0xA2, 0x46] ∧ ∃ b l, i.operands = b :: l ∧ b.toNat = q.val) ∨
      (q = 7 ∧ i.opcode ∈ [0x45, 0x46, 0x50, 0x11]) := by
  cases h with
  | ret => exact .inr ⟨eq_of_x_setX_ne hq, by simp [Instr.opcode]⟩
  | push => exact .inr ⟨eq_of_x_setX_ne hq, by simp [Instr.opcode]⟩
  | call => exact .inr ⟨eq_of_x_setX_ne hq, by simp [Instr.opcode]⟩
  | pop b r hb =>
    by_cases h7 : q = 7
    · exact .inr ⟨h7, by simp [Instr.opcode]⟩
    · rw [State.x_advance, State.x_incSp, if_neg h7] at hq
      exact .inl ⟨by simp [Instr.opcode], b, [], rfl, eq_of_x_setX_ne hq ▸ hb⟩
  | ldi b c r hb => exact .inl ⟨by simp [Instr.opcode], b, [c], rfl, eq_of_x_setX_ne hq ▸ hb⟩
  | add b c r _ hb => exact .inl ⟨by simp [Instr.opcode], b, [c], rfl, eq_of_x_setX_ne hq ▸ hb⟩
  | mul b c r _ hb => exact .inl ⟨by simp [Instr.opcode], b, [c], rfl, eq_of_x_setX_ne hq ▸ hb⟩
  | jeq | jne => rw [branch_eq_setPc] at hq; exact absurd rfl hq
  | _ => exact absurd rfl hq

/-- Where an instruction leaves `pc`: where it was (HALT, a fault), at an 8-bit target, or after its own bytes. -/
theorem Effect.pc_cases (h : Effect s i t) :
    t.pc = s.pc ∨ (∃ b : Byte, t.pc = zext9 b) ∨ t.pc = s.pc + BitVec.ofNat 9 (encode i).length := by
  cases h with
  | badFirst | badSecond | callFault | halt => exact .inl rfl
  | ret | call | jmp => exact .inr (.inl ⟨_, rfl⟩)
  | jeq | jne =>
    split
    · exact .inr (.inl ⟨_, rfl⟩)
    · exact .inr (.inr rfl)
  | _ => exact .inr (.inr rfl)

theorem Effect.status_cases (h : Effect s i t) :
    t.run = .faulted ∨ (t.fault = s.fault ∧ (t.run = s.run ∨ i.opcode = 0x01)) := by
  cases h with
  | badFirst | badSecond | callFault => exact .inl rfl
  | halt => exact .inr ⟨rfl, .inr rfl⟩
  | jeq | jne => rw [branch_eq_setPc]; exact .inr ⟨rfl, .inl rfl⟩
  | _ => exact .inr ⟨rfl, .inl rfl⟩

/-! ### The step -/

theorem fetchesOpcode_of_fetch (hr : s.run = .running) (h : fetch s = .instr i) : FetchesOpcode s i.opcode := by
  obtain ⟨hop, hp, -⟩ := fetch_instr h
  simp only [encode, List.length_cons] at hp
  exact ⟨hr, by omega, hop.symm⟩

theorem eq_of_step_of_not_running (hr : s.run ≠ .running) (h : step s = .next t) : t = s := by
  rw [step_of_not_running hr] at h
  cases h
  rfl

/-- A step moves `pc` and the status alone, or is the effect of the instruction fetched. -/
theorem step_frame_or_effect (h : step s = .next t) :
    (∃ p r f, t = { s with pc := p, run := r, fault := f }) ∨
      ∃ i, fetch s = .instr i ∧ FetchesOpcode s i.opcode ∧ Effect s i t := by
  cases step_cases h with
  | instr i _ hr hf _ _ _ he => exact .inr ⟨i, hf, fetchesOpcode_of_fetch hr hf, he⟩
  | _ => exact .inl ⟨_, _, _, rfl⟩

/-- Where memory differs after a step, it differs by one byte below the stack pointer. -/
theorem step_mem_eq (h : step s = .next t) :
    t.mem = s.mem ∨
      ((FetchesOpcode s 0x45 ∨ FetchesOpcode s 0x50) ∧ ∃ v, t.mem = s.mem.write (s.sp - 1).toNat v) := by
  obtain ⟨p, r, f, rfl⟩ | ⟨i, -, hop, he⟩ := step_frame_or_effect h
  · exact .inl rfl
  obtain hmem | ⟨hi | hi, hmem⟩ := he.mem_eq
  · exact .inl hmem
  · exact .inr ⟨.inl (hi ▸ hop), hmem⟩
  · exact .inr ⟨.inr (hi ▸ hop), hmem⟩

theorem step_flags_eq (h : step s = .next t) :
    t.flags = s.flags ∨ (FetchesOpcode s 0xA7 ∧ ∃ a b, t.flags = compareFlags a b) := by
  obtain ⟨p, r, f, rfl⟩ | ⟨i, -, hop, he⟩ := step_frame_or_effect h
  · exact .inl rfl
  obtain hflags | ⟨hi, hflags⟩ := he.flags_eq
  · exact .inl hflags
  · exact .inr ⟨hi ▸ hop, hflags⟩

/-- A step that does not fault leaves the record alone, and leaves RUNNING only by HALT (R222). -/
theorem step_status_cases (h : step s = .next t) :
    t.run = .faulted ∨ (t.fault = s.fault ∧ (t.run = s.run ∨ FetchesOpcode s 0x01)) := by
  cases step_cases h with
  | idle | skip => exact .inr ⟨rfl, .inl rfl⟩
  | opcodeFetch | operandFetch | unknown => exact .inl rfl
  | instr i _ hr hf _ _ _ he =>
    obtain hrun | ⟨hfault, hrun | hi⟩ := he.status_cases
    · exact .inl hrun
    · exact .inr ⟨hfault, .inl hrun⟩
    · exact .inr ⟨hfault, .inr (hi ▸ fetchesOpcode_of_fetch hr hf)⟩

end

/-- Settles O32: no part of a step writes the strap. -/
theorem stepKeepsTheDecodeStrap : Obligations.StepKeepsTheDecodeStrap := by
  intro s t h
  obtain ⟨p, r, f, rfl⟩ | ⟨i, -, -, he⟩ := step_frame_or_effect h
  · rfl
  · exact he.strictDecode_eq

/-- Settles O33: PRN's effect alone appends. -/
theorem outputIsAppendOnly : Obligations.OutputIsAppendOnly := by
  intro s t h
  obtain ⟨p, r, f, rfl⟩ | ⟨i, -, hop, he⟩ := step_frame_or_effect h
  · exact .inl rfl
  · exact he.out_eq.imp_right fun ⟨hi, hout⟩ => ⟨hi ▸ hop, hout⟩

/-- Settles O34: a step leaves the flags or is CMP's. -/
theorem onlyCmpChangesFlags : Obligations.OnlyCmpChangesFlags := by
  intro s t h hne
  obtain hflags | ⟨hop, -⟩ := step_flags_eq h
  · exact absurd hflags hne
  · exact hop

/-- Settles O35: the one byte PUSH and CALL write is the only one that can read differently. -/
theorem onlyPushAndCallChangeMemory : Obligations.OnlyPushAndCallChangeMemory := by
  intro s t a h hne
  obtain hmem | ⟨hop, v, hmem⟩ := step_mem_eq h <;> rw [hmem] at hne
  · exact absurd rfl hne
  · exact ⟨hop, of_not_not fun ha => hne (Memory.read_write_ne _ v ha)⟩

/-- Settles O36: the register changed is one the fetched instruction writes, and its operand byte is byte 1. -/
theorem registersChangeOnlyByTheirWriters : Obligations.RegistersChangeOnlyByTheirWriters := by
  intro s t q h hne
  obtain ⟨p, r, f, rfl⟩ | ⟨i, hf, ⟨hr, -, hop⟩, he⟩ := step_frame_or_effect h
  · exact absurd rfl hne
  rw [hop]
  refine ⟨hr, (he.x_ne hne).imp_left fun ⟨ho, b, l, hops, hb⟩ => ⟨ho, ?_⟩⟩
  rw [← hb]
  obtain ⟨hnil, -⟩ | ⟨-, hops', -⟩ | ⟨-, hops', -⟩ := operands_of_fetch hf
  · cases hops.symm.trans hnil
  · cases hops.symm.trans hops'; rfl
  · cases hops.symm.trans hops'; rfl

end Sys2Proof.Machine
end

section
/-!
PROOFS. The run-state machine and the program counter (spec/60_exceptions.md R222; spec/10_state.md R28): the causes of
a fault say which steps fault, and the instructions' rules say what the others do.
-/

namespace Sys2Proof.Machine

/-! ### What a step that completes did, by format -/

theorem not_raisesOutOfBounds {s t : State} {space : FaultSpace} {index : Nat} (hn : t.run ≠ .faulted) :
    ¬ RaisesOutOfBounds s t space index :=
  fun ⟨_, _, _, h⟩ => hn (run_of_faultedWith h)

section
variable {s t : State} {op : Byte} (hop : FetchesOpcode s op) (ht : step s = .next t)
include hop ht

theorem RuleF0.completes {post : State → State → Prop} (h : RuleF0 op post s) : post s t := by
  obtain ⟨u, hu, hpost⟩ := h hop
  cases ht.symm.trans hu
  exact hpost

variable (hn : t.run ≠ .faulted)
include hn

theorem RuleF1R.completes {post : State → Reg → State → Prop} (h : RuleF1R op post s) :
    s.pc.toNat ≤ 254 ∧ ∃ r : Reg, (s.byteAtPc 1).toNat = r.val ∧ post s r t := by
  obtain ⟨u, hu, hshort, hbad, hpost⟩ := h hop
  cases ht.symm.trans hu
  have hp : s.pc.toNat ≤ 254 := by
    have : s.pc.toNat ≠ 255 := fun h255 => not_raisesOutOfBounds hn (hshort h255)
    obtain ⟨-, hle, -⟩ := hop
    omega
  have hreg : (s.byteAtPc 1).toNat ≤ 7 := Nat.le_of_not_lt fun hgt => not_raisesOutOfBounds hn (hbad hp hgt)
  exact ⟨hp, ⟨_, Nat.lt_succ_of_le hreg⟩, rfl, hpost _ hp rfl⟩

theorem RuleF1R.completes_at {post : State → Reg → State → Prop} {r : Reg} (h : RuleF1R op post s)
    (hr : (s.byteAtPc 1).toNat = r.val) : post s r t := by
  obtain ⟨-, q, hq, hpost⟩ := h.completes hop ht hn
  obtain rfl : q = r := Fin.ext (hq.symm.trans hr)
  exact hpost

theorem RuleF2RI.completes {post : State → Reg → Byte → State → Prop} (h : RuleF2RI op post s) :
    s.pc.toNat ≤ 253 ∧ ∃ r : Reg, post s r (s.byteAtPc 2) t := by
  obtain ⟨u, hu, hshort, hbad, hpost⟩ := h hop
  cases ht.symm.trans hu
  have hp : s.pc.toNat ≤ 253 := Nat.le_of_lt_succ (Nat.lt_of_not_le fun hge => not_raisesOutOfBounds hn (hshort hge))
  have hreg : (s.byteAtPc 1).toNat ≤ 7 := Nat.le_of_not_lt fun hgt => not_raisesOutOfBounds hn (hbad hp hgt)
  exact ⟨hp, _, hpost ⟨_, Nat.lt_succ_of_le hreg⟩ hp rfl⟩

theorem RuleF2RR.completes {post : State → Reg → Reg → State → Prop} (h : RuleF2RR op post s) :
    s.pc.toNat ≤ 253 ∧ ∃ ra rb : Reg, post s ra rb t := by
  obtain ⟨u, hu, hshort, hbad1, hbad2, hpost⟩ := h hop
  cases ht.symm.trans hu
  have hp : s.pc.toNat ≤ 253 := Nat.le_of_lt_succ (Nat.lt_of_not_le fun hge => not_raisesOutOfBounds hn (hshort hge))
  have h1 : (s.byteAtPc 1).toNat ≤ 7 := Nat.le_of_not_lt fun hgt => not_raisesOutOfBounds hn (hbad1 hp hgt)
  have h2 : (s.byteAtPc 2).toNat ≤ 7 := Nat.le_of_not_lt fun hgt => not_raisesOutOfBounds hn (hbad2 hp h1 hgt)
  exact ⟨hp, _, _, hpost ⟨_, Nat.lt_succ_of_le h1⟩ ⟨_, Nat.lt_succ_of_le h2⟩ hp rfl rfl⟩

end

/-! ### The run state -/

/-- Settles O10: a step ends FAULTED exactly where a cause holds, and leaves RUNNING otherwise only by HALT. -/
theorem runStateMachineRows : Obligations.RunStateMachineRows := by
  refine ⟨fun _ => rfl, fun s t h => ⟨fun hr => ?_, fun hr => ?_, fun hop => ?_, ?_, fun hr hop hno => ?_⟩⟩
  · exact eq_of_step_of_not_running (by rw [hr]; nofun) h
  · exact eq_of_step_of_not_running (by rw [hr]; nofun) h
  · have hpost : PostHalt s t := (haltRule s).2.completes hop h
    rw [hpost]
  · rintro hr ⟨f, hc⟩
    exact run_of_faultedWith (faultedWith_of_faultCause hr hc h)
  · obtain hf | ⟨-, hrun | hhalt⟩ := step_status_cases h
    · exact absurd ⟨_, faultCause_of_step hr h hf⟩ hno
    · exact hrun.trans hr
    · exact absurd hhalt hop

/-! ### The program counter -/

theorem toNat_pc_of_advance {s t : State} {n : Nat} (h : t.pc = s.pc + BitVec.ofNat 9 n) (hn : s.pc.toNat + n < 512) :
    t.pc.toNat = s.pc.toNat + n := by rw [h, toNat_pc_add hn]

/-- CALL's target is the register as the step leaves it: for register 7 the decremented stack pointer (D10). -/
theorem PostCall.pc_eq {s t : State} {r : Reg} (h : PostCall s r t) : t.pc.toNat = (t.x r).toNat := by
  obtain ⟨hsp, -, hpc, hregs, -⟩ := h
  rw [hpc]
  split
  next h7 => rw [h7, ← hsp]; rfl
  next h7 => rw [hregs r (by simpa using h7)]

/-- Settles O11: each row is read off the rules of its instructions; the bytes fetched end at 256 at most, so no
addition wraps. -/
theorem pcChangesAsTheTableSays : Obligations.PcChangesAsTheTableSays := by
  intro s t hr ht hn
  have hp : s.pc.toNat ≤ 255 := Nat.le_of_not_lt fun hgt =>
    hn (run_of_faultedWith (faultedWith_of_faultCause hr (.opcodeFetch hgt) ht))
  have fetches {op : Byte} (ho : s.byteAtPc 0 = op) : FetchesOpcode s op := ⟨hr, hp, ho⟩
  refine ⟨fun ho => ?_, fun ho => ?_, fun r hb ho => ?_, fun r hb ho => ?_, fun r hb ho => ?_, fun ho => ?_,
    fun ho => ?_, fun ho => ?_⟩
  · suffices h : s.pc.toNat ≤ 254 ∧ t.pc = s.pc + 2 from toNat_pc_of_advance h.2 (by omega)
    simp only [List.mem_cons, List.not_mem_nil, or_false] at ho
    obtain ho | ho | ho := ho
    · obtain ⟨hp, r, -, -, -, hpc, -⟩ := (pushRule s).2.completes (fetches ho) ht hn
      exact ⟨hp, hpc⟩
    · obtain ⟨hp, r, -, -, -, hpc, -⟩ := (popRule s).2.completes (fetches ho) ht hn
      exact ⟨hp, hpc⟩
    · obtain ⟨hp, r, -, -, hpc, -⟩ := (prnRule s).2.completes (fetches ho) ht hn
      exact ⟨hp, hpc⟩
  · suffices h : s.pc.toNat ≤ 253 ∧ t.pc = s.pc + 3 from toNat_pc_of_advance h.2 (by omega)
    simp only [List.mem_cons, List.not_mem_nil, or_false] at ho
    obtain ho | ho | ho | ho := ho
    · obtain ⟨hp, r, -, hpc, -⟩ := (ldiRule s).2.completes (fetches ho) ht hn
      exact ⟨hp, hpc⟩
    · obtain ⟨hp, ra, rb, -, hpc, -⟩ := (addRule s).2.completes (fetches ho) ht hn
      exact ⟨hp, hpc⟩
    · obtain ⟨hp, ra, rb, -, hpc, -⟩ := (mulRule s).2.completes (fetches ho) ht hn
      exact ⟨hp, hpc⟩
    · obtain ⟨hp, ra, rb, -, -, -, hpc, -⟩ := (cmpRule s).2.completes (fetches ho) ht hn
      exact ⟨hp, hpc⟩
  · simp only [List.mem_cons, List.not_mem_nil, or_false] at ho
    obtain ho | ho := ho
    · obtain ⟨hfits, hraises⟩ := (callRule s).2.completes_at (fetches ho) ht hn hb
      obtain ⟨hp', -⟩ := (callRule s).2.completes (fetches ho) ht hn
      have : s.pc.toNat ≠ 254 := fun h254 =>
        not_raisesOutOfBounds hn (hraises (BitVec.eq_of_toNat_eq h254))
      exact (hfits (by omega)).pc_eq
    · obtain ⟨hpc, hregs, -⟩ := (jmpRule s).2.completes_at (fetches ho) ht hn hb
      rw [hpc, hregs r (by simp)]
  · obtain ⟨htaken, hnext, -⟩ := (jeqRule s).2.completes_at (fetches ho) ht hn hb
    split
    next he => exact htaken he
    next he => exact toNat_pc_of_advance (hnext (by simpa using he)) (by omega)
  · obtain ⟨htaken, hnext, -⟩ := (jneRule s).2.completes_at (fetches ho) ht hn hb
    split
    next he => exact toNat_pc_of_advance (hnext he) (by omega)
    next he => exact htaken (by simpa using he)
  · obtain ⟨hpc, -⟩ := (retRule s).2.completes (fetches ho) ht
    exact hpc
  · have hpost : PostHalt s t := (haltRule s).2.completes (fetches ho) ht
    rw [hpost]
  · obtain ⟨u, hu, hstrict, hlenient⟩ := unknownOpcodeInBothModes s hr hp ho
    cases ht.symm.trans hu
    cases hs : s.strictDecode with
    | true => exact absurd (hstrict hs).1 hn
    | false => exact (hlenient hs).2.1

end Sys2Proof.Machine
end

section
/-!
PROOFS. The invariant of the CORE (spec/10_state.md R29, R32, R34; the canonical form of memory): each part is kept by
every step, so all of it holds along every run; every reset meets it.
-/

namespace Sys2Proof.Machine

/-! ### The canonical form of memory -/

/-- Settles O26: a step writes at most one byte, at an 8-bit address. -/
theorem stepKeepsMemoryCanonical : Obligations.StepKeepsMemoryCanonical := by
  intro s t hm h
  obtain hmem | ⟨-, v, hmem⟩ := step_mem_eq h <;> rw [hmem]
  · exact hm
  · exact State.wf_writeByte hm (s.sp - 1) v

/-! ### The program counter -/

/-- Settles O28: a jump target is 8 bits wide, and an advance ends where the bytes fetched end, at 256 at most. -/
theorem stepKeepsPcInRange : Obligations.StepKeepsPcInRange := by
  intro s t hpc h
  cases step_cases h with
  | idle | opcodeFetch | operandFetch | unknown => exact hpc
  | skip _ hp =>
    rw [PcInRange, State.advance_pc, toNat_pc_add (by omega)]
    omega
  | instr i _ _ _ _ hp _ he =>
    obtain hpc' | ⟨b, hpc'⟩ | hpc' := he.pc_cases <;> rw [PcInRange, hpc']
    · exact hpc
    · rw [toNat_zext9]
      exact b.isLt.le
    · rwa [toNat_pc_add (by omega)]

/-! ### The flags -/

theorem count_compareFlags (a b : Byte) : (compareFlags a b).count = 1 := by
  rw [compareFlags]
  split
  · rfl
  · split <;> rfl

/-- A CMP that completes writes all three flags. -/
theorem flags_of_cmp_completes {s t : State} (hop : FetchesOpcode s 0xA7) (ht : step s = .next t)
    (hn : t.run ≠ .faulted) : ∃ a b, t.flags = compareFlags a b := by
  have hrule : RuleF2RR 0xA7 (fun s ra rb t => t.flags = compareFlags (s.x ra) (s.x rb)) s :=
    ruleF2RR_of_exec rfl (by decide) fun _ _ _ _ ha hb => ⟨_, execCmp_eq s ha hb, rfl⟩
  obtain ⟨-, ra, rb, hflags⟩ := hrule.completes hop ht hn
  exact ⟨_, _, hflags⟩

/-- Settles O29: a step leaves the flags alone or sets them as CMP does. -/
theorem stepKeepsAtMostOneFlag : Obligations.StepKeepsAtMostOneFlag := by
  intro s t h
  constructor
  · intro hs
    obtain hflags | ⟨-, a, b, hflags⟩ := step_flags_eq h <;> rw [FlagsAtMostOne, hflags]
    · exact hs
    · exact (count_compareFlags a b).le
  · intro hop hrun
    obtain ⟨a, b, hflags⟩ := flags_of_cmp_completes hop h (by rw [hrun]; nofun)
    rw [hflags, count_compareFlags]

/-! ### The fault record -/

/-- The record of a cause met with `pc` in range holds what R34 says of its fields. -/
theorem FaultCause.sound {s : State} {f : FaultRecord} (hpc : PcInRange s) (hc : FaultCause s f) : f.Sound := by
  have reg_sound {b : Byte} (hp : s.pc.toNat ≤ 254) (hb : 7 < b.toNat) :
      (⟨.outOfBounds, s.pc, true, s.byteAtPc 0, .reg, zext9 b⟩ : FaultRecord).Sound :=
    Or.inr ⟨rfl, by rw [toNat_zext9]; exact hb, by rw [toNat_zext9]; exact Nat.le_of_lt_succ b.isLt, rfl, hp⟩
  cases hc with
  | opcodeFetch h =>
    have h256 : s.pc = 256 := BitVec.eq_of_toNat_eq (Nat.le_antisymm hpc h)
    exact Or.inl ⟨rfl, h256, fun _ => ⟨h256, rfl⟩, nofun⟩
  | unknownOpcode h _ ho => exact ⟨rfl, rfl, h, rfl, ho⟩
  | firstOperandFetch h => exact Or.inl ⟨rfl, rfl, nofun, fun _ => .inr (BitVec.eq_of_toNat_eq h)⟩
  | secondOperandFetch h | returnAddress h => exact Or.inl ⟨rfl, rfl, nofun, fun _ => .inl (BitVec.eq_of_toNat_eq h)⟩
  | onlyRegister h _ hb => exact reg_sound h hb
  | firstRegister h _ hb | secondRegister h _ _ hb => exact reg_sound (by omega) hb

/-- Settles O30: a record is written only by a cause, whose record is sound; any other step leaves it clear. -/
theorem stepKeepsFaultRecordFitting : Obligations.StepKeepsFaultRecordFitting := by
  intro s t hpc hfit h
  by_cases hr : s.run = .running
  · have hclear : s.fault = FaultRecord.clear := hfit.1 (by rw [hr]; nofun)
    refine ⟨fun hn => ?_, fun hf => ?_⟩
    · obtain hf | ⟨hfault, -⟩ := step_status_cases h
      · exact absurd hf hn
      · exact hfault.trans hclear
    · have hc : FaultCause s t.fault := faultCause_of_step hr h hf
      refine ⟨hc.sound hpc, hc.pc_eq.trans ?_⟩
      rw [faultedWith_of_faultCause hr hc h]
  · rwa [eq_of_step_of_not_running hr h]

/-! ### Along every run -/

theorem State.Inv.step {s t : State} (hs : s.Inv) (h : step s = .next t) : t.Inv := by
  obtain ⟨hpc, hflags, hfault, hmem⟩ := hs
  exact ⟨stepKeepsPcInRange s t hpc h, (stepKeepsAtMostOneFlag s t h).1 hflags,
    stepKeepsFaultRecordFitting s t hpc hfault h, stepKeepsMemoryCanonical s t hmem h⟩

/-- Settles O31, by induction on the number of steps. -/
theorem runsKeepTheInvariant : Obligations.RunsKeepTheInvariant := by
  intro s k hs
  induction k generalizing s with
  | zero => exact ⟨s, rfl, hs⟩
  | succ k ih =>
    obtain ⟨u, hu, -⟩ := step_effect s
    obtain ⟨t, ht, hinv⟩ := ih u (hs.step hu)
    exact ⟨t, (run_succ_of_step (M := core) hu k).trans ht, hinv⟩

/-! ### At reset -/

theorem resetWith_inv (p : Config.Params) : (State.resetWith p).Inv :=
  ⟨Nat.zero_le _, Nat.zero_le _, ⟨fun _ => rfl, nofun⟩, resetWith_mem_wf p⟩

/-- Settles O22: `State.reset` is one of the resets, and each has a clear record, no flag and canonical memory. -/
theorem resetMeetsTheInvariant : Obligations.ResetMeetsTheInvariant :=
  ⟨reset_eq_resetWith, reset_eq_resetWith ▸ resetWith_inv _, resetWith_inv⟩

end Sys2Proof.Machine
end

section
/-!
PROOFS. What no instruction reads (spec/10_state.md R31, R34, R37): Less, Greater, the output and the fault record. A
step writes that part of the state in one of four ways, which do not depend on what it held.
-/

namespace Sys2Proof.Machine

/-- The part of the state that no step reads. -/
structure Unread where
  less : Bool
  greater : Bool
  out : List Byte
  fault : FaultRecord

def State.unread (s : State) : Unread := ⟨s.flags.less, s.flags.greater, s.out, s.fault⟩

/-- `s` with its unread part replaced. -/
def State.withUnread (s : State) (u : Unread) : State :=
  { s with flags := ⟨u.less, u.greater, s.flags.equal⟩, out := u.out, fault := u.fault }

theorem State.withUnread_unread (s : State) : s.withUnread s.unread = s := rfl

/-- What a step can do to the unread part. -/
inductive UnreadWrite where
  | keep
  | emit (v : Byte)
  | compare (less greater : Bool)
  | record (f : FaultRecord)

def UnreadWrite.apply : UnreadWrite → Unread → Unread
  | .keep, u => u
  | .emit v, u => { u with out := u.out ++ [v] }
  | .compare l g, u => { u with less := l, greater := g }
  | .record f, u => { u with fault := f }

/-- The bytes a write emits. -/
def UnreadWrite.emitted : UnreadWrite → List Byte
  | .emit v => [v]
  | .keep | .compare _ _ | .record _ => []

theorem UnreadWrite.apply_out (w : UnreadWrite) (u : Unread) : (w.apply u).out = u.out ++ w.emitted := by
  cases w with
  | emit v => rfl
  | keep | compare | record => exact (List.append_nil u.out).symm

/-- A write puts the same Less and Greater whatever the output and the record were. -/
theorem UnreadWrite.apply_flags_congr (w : UnreadWrite) {u v : Unread} (hl : u.less = v.less)
    (hg : u.greater = v.greater) : (w.apply u).less = (w.apply v).less ∧ (w.apply u).greater = (w.apply v).greater := by
  cases w with
  | compare => exact ⟨rfl, rfl⟩
  | keep | emit | record => exact ⟨hl, hg⟩

/-- A write puts the same record whatever the flags and the output were. -/
theorem UnreadWrite.apply_fault_congr (w : UnreadWrite) {u v : Unread} (hf : u.fault = v.fault) :
    (w.apply u).fault = (w.apply v).fault := by
  cases w with
  | record => rfl
  | keep | emit | compare => exact hf

/-- The outcome is `t` but for the unread part, which is written in the way `w` whatever it held. -/
def ActsOnUnread (act : State → Result) (s t : State) (w : UnreadWrite) : Prop :=
  ∀ u : Unread, act (s.withUnread u) = .next (t.withUnread (w.apply u))

section
variable {s t : State}

theorem raise_withUnread (s : State) (u : Unread) (k : FaultKind) (sp : FaultSpace) (a : BitVec 9) (o : Option Byte) :
    (s.withUnread u).raise k sp a o =
      (s.raise k sp a o).withUnread ((UnreadWrite.record (s.raise k sp a o).fault).apply u) := rfl

/-- An instruction computes the same from equal parts read; one write per effect. -/
theorem exec_actsOnUnread {i : Instr} (h : exec i s = .next t) : ∃ w, ActsOnUnread (exec i) s t w := by
  cases exec_cases h with
  | badFirst _ b l hi hb =>
    exact ⟨.record _, fun u => (exec_of_first_gt _ hi hb).trans (congrArg _ (raise_withUnread s u ..))⟩
  | badSecond _ a b hi hr ha hb =>
    exact ⟨.record _, fun u => (exec_of_second_gt _ hi hr ha hb).trans (congrArg _ (raise_withUnread s u ..))⟩
  | halt => exact ⟨.keep, fun u => execHalt_eq _⟩
  | ret => exact ⟨.keep, fun u => execRet_eq _⟩
  | push b r hb => exact ⟨.keep, fun u => execPush_eq _ hb⟩
  | pop b r hb => exact ⟨.keep, fun u => execPop_eq _ hb⟩
  | prn b r hb => exact ⟨.emit (s.x r), fun u => execPrn_eq _ hb⟩
  | callFault b r hb hp =>
    exact ⟨.record _, fun u => ((execCall_eq (s.withUnread u) hb).trans (if_pos hp)).trans
      (congrArg _ (raise_withUnread s u .outOfBounds .mem (BitVec.ofNat 9 (s.pc.toNat + 2)) (some 0x50)))⟩
  | call b r hb hp => exact ⟨.keep, fun u => (execCall_eq _ hb).trans (if_neg (Nat.not_lt_of_le hp))⟩
  | jmp b r hb => exact ⟨.keep, fun u => execJmp_eq _ hb⟩
  | jeq b r hb =>
    rw [branch_eq_setPc]
    exact ⟨.keep, fun u => (execJeq_eq _ hb).trans (congrArg _ (branch_eq_setPc _ _ _))⟩
  | jne b r hb =>
    rw [branch_eq_setPc]
    exact ⟨.keep, fun u => (execJne_eq _ hb).trans (congrArg _ (branch_eq_setPc _ _ _))⟩
  | ldi b c r hb => exact ⟨.keep, fun u => execLdi_eq _ hb⟩
  | add b c r q hb hc => exact ⟨.keep, fun u => execAdd_eq _ hb hc⟩
  | mul b c r q hb hc => exact ⟨.keep, fun u => execMul_eq _ hb hc⟩
  | cmp b c r q hb hc =>
    exact ⟨.compare (compareFlags (s.x r) (s.x q)).less (compareFlags (s.x r) (s.x q)).greater,
      fun u => execCmp_eq _ hb hc⟩

theorem unknownOpcode_actsOnUnread {b0 : Byte} (h : unknownOpcode b0 s = .next t) :
    ∃ w, ActsOnUnread (unknownOpcode b0) s t w := by
  rw [unknownOpcode_eq] at h
  cases h
  by_cases hs : s.strictDecode = true
  · rw [if_pos hs]
    exact ⟨.record _, fun u => (unknownOpcode_eq b0 _).trans
      (congrArg _ ((if_pos hs).trans (raise_withUnread s u .unknownOpcode .mem s.pc (some b0))))⟩
  · rw [if_neg hs]
    exact ⟨.keep, fun u => (unknownOpcode_eq b0 _).trans (congrArg _ (if_neg hs))⟩

/-- The fetch reads `pc` and memory alone. -/
theorem fetch_withUnread (s : State) (u : Unread) : fetch (s.withUnread u) = fetch s := rfl

theorem cycle_actsOnUnread (h : cycle s = .next t) : ∃ w, ActsOnUnread cycle s t w := by
  simp only [ActsOnUnread, cycle, fetch_withUnread] at h ⊢
  cases hf : fetch s with rw [hf] at h
  | instr i => exact exec_actsOnUnread h
  | unknown b0 => exact unknownOpcode_actsOnUnread h
  | outOfRange opcode addr =>
    cases h
    exact ⟨.record _, fun u => congrArg _ (raise_withUnread s u ..)⟩

/-- The whole step: the unread part is written in one way, and the rest does not depend on it. -/
theorem step_actsOnUnread (h : step s = .next t) : ∃ w, ActsOnUnread step s t w := by
  by_cases hr : s.run = .running
  · rw [step_of_running hr] at h
    obtain ⟨w, hw⟩ := cycle_actsOnUnread h
    exact ⟨w, fun u => (step_of_running (s := s.withUnread u) hr).trans (hw u)⟩
  · rw [step_of_not_running hr] at h
    cases h
    exact ⟨.keep, fun u => step_of_not_running (s := s.withUnread u) hr⟩

theorem unread_of_actsOnUnread {w : UnreadWrite} (hw : ActsOnUnread step s t w) (h : step s = .next t) :
    t.unread = w.apply s.unread := by
  have hself := hw s.unread
  rw [State.withUnread_unread, h] at hself
  exact congrArg State.unread (Host.Outcome.next.inj hself)

end

/-- Settles O37: with other Less and Greater, output and record are written as before. -/
theorem stepIgnoresLessAndGreater : Obligations.StepIgnoresLessAndGreater := by
  intro s t l g h
  obtain ⟨w, hw⟩ := step_actsOnUnread h
  have ht : t.unread = w.apply s.unread := unread_of_actsOnUnread hw h
  let u : Unread := { s.unread with less := l, greater := g }
  refine ⟨(w.apply u).less, (w.apply u).greater, (hw u).trans ?_⟩
  have hout : (w.apply u).out = t.out := by
    rw [w.apply_out u, ← w.apply_out s.unread, ← ht]
    rfl
  have hfault : (w.apply u).fault = t.fault := by
    rw [w.apply_fault_congr (u := u) (v := s.unread) rfl, ← ht]
    rfl
  rw [State.withUnread, hout, hfault]

/-- Settles O38: with another output and record, the flags are written and the bytes emitted as before. -/
theorem stepIgnoresOutputAndFaultRecord : Obligations.StepIgnoresOutputAndFaultRecord := by
  intro s t o f h
  obtain ⟨w, hw⟩ := step_actsOnUnread h
  have ht : t.unread = w.apply s.unread := unread_of_actsOnUnread hw h
  let u : Unread := { s.unread with out := o, fault := f }
  refine ⟨w.emitted, (w.apply u).fault, ?_, (hw u).trans ?_⟩
  · calc t.out = (w.apply s.unread).out := congrArg Unread.out ht
      _ = s.out ++ w.emitted := w.apply_out _
  · obtain ⟨hl, hg⟩ := w.apply_flags_congr (u := u) (v := s.unread) rfl rfl
    rw [← ht] at hl hg
    rw [State.withUnread, w.apply_out, hl, hg]
    rfl

end Sys2Proof.Machine
end

section
/-!
PROOFS. Instructions in sequence (spec/43_stack.md R152; spec/44_control_transfer.md R161, R162, R165;
spec/20_memory.md R63), each from the single instructions' rules.
-/

namespace Sys2Proof.Machine

section
variable {s t u : State} {r q : Reg}

/-- The stack pointer is back, so a register other than 7 that neither instruction writes is too. -/
theorem x_eq_of_sp_restored {p : Reg} {rs rs' : List Reg} (hsp : u.sp = s.sp) (ht : SameRegsBut s t rs)
    (hu : SameRegsBut t u rs') (hp : p ≠ 7 → p ∉ rs ∧ p ∉ rs') : u.x p = s.x p := by
  by_cases h7 : p = 7
  · rw [h7]; exact hsp
  · obtain ⟨hrs, hrs'⟩ := hp h7
    exact (hu p hrs').trans (ht p hrs)

theorem push_pop_round_trip (hr : r ≠ 7) (hq : q ≠ 7) (ht : PostPush s r t) (hu : PostPop t q u) :
    u.x q = s.x r ∧ u.sp = s.sp ∧ ∀ p : Reg, p ≠ q → u.x p = s.x p := by
  obtain ⟨htsp, htmem, -, htregs, -⟩ := ht
  obtain ⟨hpop, -, -, huregs, -⟩ := hu
  obtain ⟨hux, husp⟩ := hpop hq
  have hsp : u.sp = s.sp := by rw [husp, htsp, BitVec.sub_add_cancel]
  refine ⟨?_, hsp, fun p hp => x_eq_of_sp_restored hsp htregs huregs fun h7 => by simp [h7, hp]⟩
  rw [hux, htsp, htmem, if_neg hr]

theorem call_ret_resumes (ht : PostCall s r t) (hu : PostRet t u) :
    u.pc.toNat = s.pc.toNat + 2 ∧ ∀ p : Reg, u.x p = s.x p := by
  obtain ⟨htsp, htmem, -, htregs, -⟩ := ht
  obtain ⟨hupc, husp, huregs, -⟩ := hu
  have hsp : u.sp = s.sp := by rw [husp, htsp, BitVec.sub_add_cancel]
  refine ⟨?_, fun p => x_eq_of_sp_restored hsp htregs huregs fun h7 => by simp [h7]⟩
  rw [hupc, htsp, htmem]

end

/-- Settles O54: POP reads at the stack pointer PUSH wrote at. -/
theorem pushThenPopRoundTrips : Obligations.PushThenPopRoundTrips := by
  intro s b c r q hb hc hr hq
  obtain ⟨t, ht, htpost⟩ := execPush_post s b r hb
  obtain ⟨u, hu, hupost⟩ := execPop_post t c q hc
  exact ⟨t, u, ht, hu, push_pop_round_trip hr hq htpost hupost⟩

/-- Settles O55: RET reads at the stack pointer CALL wrote the return address at. -/
theorem callThenRetResumesAfterTheCall : Obligations.CallThenRetResumesAfterTheCall := by
  intro s b r hb hp
  obtain ⟨t, ht, htpost⟩ := execCall_post s b r hb hp
  obtain ⟨u, hu, hupost⟩ := execRet_post t
  exact ⟨t, u, ht, hu, call_ret_resumes htpost hupost⟩

/-- Settles O56, by the two values of the Equal flag. -/
theorem jeqAndJneAreComplements : Obligations.JeqAndJneAreComplements := by
  intro s b r hb
  obtain ⟨t, ht, htaken, htnext, -⟩ := execJeq_post s b r hb
  obtain ⟨u, hu, hutaken, hunext, -⟩ := execJne_post s b r hb
  refine ⟨t, u, ht, hu, ?_⟩
  cases he : s.flags.equal with
  | true => exact .inl ⟨htaken he, hunext he⟩
  | false => exact .inr ⟨htnext he, hutaken he⟩

/-! ### Fetch coherence (D13) -/

section
variable {t : State}

/-- A table opcode at `pc` whose bytes do not decode lacks an operand byte. -/
theorem fetch_of_not_decode (hp : t.pc.toNat ≤ 255) (hk : t.byteAtPc 0 ∈ knownOpcodes)
    (hd : ∀ (i : Instr) (rest : List Byte), decode (t.bytesFrom t.pc.toNat) ≠ .ok (i, rest)) :
    fetch t = .outOfRange (some (t.byteAtPc 0)) 256 := by
  have hc := fetch_cases t
  generalize hf : fetch t = f at hc
  cases hc with
  | pastEnd hgt => omega
  | unknown _ hl => exact absurd hk ((lookup_eq_none_iff _).mp hl)
  | short1 | short2 => rfl
  | whole0 | whole1 | whole2 => exact absurd (decode_bytesFrom_of_fetch hf) (hd _ _)

/-- What a step of a RUNNING core does with the byte at `pc`: the three outcomes of fetch and dispatch. -/
theorem dispatch_on_byteAtPc (hr : t.run = .running) (hp : t.pc.toNat ≤ 255) :
    (t.byteAtPc 0 ∉ knownOpcodes →
      fetch t = .unknown (t.byteAtPc 0) ∧ step t = unknownOpcode (t.byteAtPc 0) t) ∧
    (∀ (i : Instr) (rest : List Byte), decode (t.bytesFrom t.pc.toNat) = .ok (i, rest) →
      fetch t = .instr i ∧ step t = exec i t) ∧
    (t.byteAtPc 0 ∈ knownOpcodes →
      (∀ (i : Instr) (rest : List Byte), decode (t.bytesFrom t.pc.toNat) ≠ .ok (i, rest)) →
      ∃ u : State, step t = .next u ∧ RaisesOutOfBounds t u .mem 256 ∧ u.fault.opcode = t.byteAtPc 0) := by
  refine ⟨fun hk => ?_, fun i rest hd => ?_, fun hk hd => ?_⟩
  · have hf := fetch_unknown hp ((lookup_eq_none_iff _).mpr hk)
    exact ⟨hf, by rw [step_of_running hr, cycle, hf]⟩
  · have hf := fetch_of_decode hd
    exact ⟨hf, step_of_fetch hr hf⟩
  · have hf := fetch_of_not_decode hp hk hd
    exact ⟨_, step_of_fetch_outOfRange hr hf, raisesOutOfBounds_raise_mem t _, rfl⟩

end

/-- Settles O57: PUSH leaves `pc` at the byte it stored, and the next step dispatches on the byte there. -/
theorem nextFetchSeesThePushedByte : Obligations.NextFetchSeesThePushedByte := by
  intro s b r hr hb hp hsp
  obtain ⟨t, ht, -, hmem, hpc, -, -, -, -, hrun, -⟩ := execPush_post s b r hb
  have hpc : t.pc.toNat = s.pc.toNat + 2 := toNat_pc_of_advance hpc (by omega)
  have hbyte : t.byteAtPc 0 = if r = 7 then s.sp - 1 else s.x r := by
    rw [State.byteAtPc, Nat.add_zero, hpc, ← hsp, hmem]
  have hbytes : t.bytesFrom t.pc.toNat = t.byteAtPc 0 :: t.bytesFrom (t.pc.toNat + 1) := bytesFrom_cons t (by omega)
  refine ⟨t, t.byteAtPc 0, ht, hbyte, rfl, hpc, ?_⟩
  rw [← hbytes]
  exact dispatch_on_byteAtPc (hrun.trans hr) (by omega)

end Sys2Proof.Machine
end

section
/-!
PROOFS. Reset, loading and running (spec/70_reset_and_hazards.md R240, R243, R244; spec/40_execution_cycle.md
R120).
-/

namespace Sys2Proof.Machine

/-! ### Every step answers -/

/-- Settles O8: the inversions of `step` and `exec` are total. -/
theorem everyStepAnswersANextState : Obligations.EveryStepAnswersANextState := by
  refine ⟨fun s => ?_, fun i s => ?_⟩
  · obtain ⟨t, ht, -⟩ := step_effect s
    exact ⟨t, ht⟩
  · obtain ⟨t, ht, -⟩ := exec_effect i s
    exact ⟨t, ht⟩

/-! ### Reset -/

/-- Settles O21: the register file ends with the stack pointer, and memory is a list of bytes written from 0. -/
theorem resetLeavesTheListedValues : Obligations.ResetLeavesTheListedValues := by
  intro p
  have hsp : (State.resetWith p).x 7 = 0xF4 := by simp [State.x, State.resetWith, Config.spReset]
  refine ⟨rfl, hsp, hsp, rfl, rfl, rfl, rfl, fun i => ?_, fun a => ?_, rfl⟩
  · simp [State.x, State.resetWith]
  · simp [State.resetWith, Memory.read_writeList]

/-! ### Loading -/

section
variable {ss : Session} {program : List Byte} (hph : ss.phase = .constructed)
include hph

theorem Session.load_of_le (h : program.length ≤ 256) :
    ss.load program =
      (⟨{ ss.core with mem := ss.core.mem.writeList Config.loadBase program }, .loaded⟩, .next ()) := by
  have hmem : loadMemory ss.core.mem program = some (ss.core.mem.writeList Config.loadBase program) :=
    if_neg (Nat.not_lt_of_le h)
  simp only [Session.load, hph, hmem]

theorem Session.load_of_gt (h : 256 < program.length) : ss.load program = (ss, .fault .programTooLarge) := by
  have hmem : loadMemory ss.core.mem program = none := if_pos h
  simp only [Session.load, hph, hmem]

end

theorem Session.load_of_not_constructed {ss : Session} (hph : ss.phase ≠ .constructed) (program : List Byte) :
    ss.load program = (ss, .refused .lateLoad) := by
  cases h : ss.phase with
  | constructed => exact absurd h hph
  | loaded | started => simp only [Session.load, h]

/-- Settles O23: what reads back is the law of a list of bytes written from the load base. -/
theorem loadWritesTheProgram : Obligations.LoadWritesTheProgram := by
  intro ss program hph
  refine ⟨fun hle => ⟨ss.core.mem.writeList Config.loadBase program, Session.load_of_le hph hle, fun a h => ?_,
    fun a h => ?_, fun hwf => Memory.wf_writeList hwf ?_⟩, Session.load_of_gt hph⟩
  · rw [Memory.read_writeList, dif_pos ⟨Nat.zero_le a, h⟩]
    rfl
  · rw [Memory.read_writeList, dif_neg fun ⟨_, hlt⟩ => Nat.not_lt_of_le h hlt]
  · rwa [Config.loadBase, Nat.zero_add]

/-- Settles O24: a load that succeeds and a step both leave the phase past `constructed`. -/
theorem lateLoadIsRefused : Obligations.LateLoadIsRefused := by
  intro ss first second
  constructor
  · intro hok
    refine Session.load_of_not_constructed ?_ second
    by_cases hph : ss.phase = .constructed
    · by_cases hle : first.length ≤ 256
      · rw [Session.load_of_le hph hle]; nofun
      · rw [Session.load_of_gt hph (Nat.lt_of_not_le hle)] at hok; cases hok
    · rw [Session.load_of_not_constructed hph] at hok; cases hok
  · obtain ⟨t, ht, -⟩ := step_effect ss.core
    exact ⟨⟨t, .started⟩, by rw [Session.step, ht],
      Session.load_of_not_constructed (ss := ⟨t, .started⟩) nofun second⟩

/-! ### Running to completion -/

theorem runToEnd_of_not_running {s : State} (h : s.run ≠ .running) (n : Nat) : runToEnd s n = some s := by
  cases n <;> exact if_neg h

theorem runToEnd_succ {s t : State} (hr : s.run = .running) (h : step s = .next t) (n : Nat) :
    runToEnd s (n + 1) = runToEnd t n := by
  rw [runToEnd, if_pos hr, h]

/-- `t` is where single steps from `s` first find the core not RUNNING, after `k` of them. -/
def FirstStopsAt (s : State) (k : Nat) (t : State) : Prop :=
  Host.Core.run core k s = .next t ∧ t.run ≠ .running ∧
    ∀ j < k, ∃ u : State, Host.Core.run core j s = .next u ∧ u.run = .running

theorem firstStopsAt_zero {s t : State} : FirstStopsAt s 0 t ↔ t = s ∧ s.run ≠ .running := by
  constructor
  · rintro ⟨hrun, hn, -⟩
    cases hrun
    exact ⟨rfl, hn⟩
  · rintro ⟨rfl, hn⟩
    exact ⟨rfl, hn, nofun⟩

/-- A first stop later than now is a first stop of the state after one step. -/
theorem firstStopsAt_succ {s u t : State} {k : Nat} (hu : step s = .next u) :
    FirstStopsAt s (k + 1) t ↔ s.run = .running ∧ FirstStopsAt u k t := by
  have hrun (j : Nat) : Host.Core.run core (j + 1) s = Host.Core.run core j u := run_succ_of_step (M := core) hu j
  constructor
  · rintro ⟨ht, hn, hbefore⟩
    obtain ⟨s', hs', hr⟩ := hbefore 0 (Nat.succ_pos k)
    cases hs'
    exact ⟨hr, (hrun k).symm.trans ht, hn, fun j hj => hrun j ▸ hbefore (j + 1) (Nat.succ_lt_succ hj)⟩
  · rintro ⟨hr, ht, hn, hbefore⟩
    refine ⟨(hrun k).trans ht, hn, fun j hj => ?_⟩
    cases j with
    | zero => exact ⟨s, rfl, hr⟩
    | succ j => exact (hrun j).symm ▸ hbefore j (Nat.lt_of_succ_lt_succ hj)

/-- A core that is not RUNNING stops at once, whatever the budget. -/
theorem runToEnd_iff_of_not_running {s : State} (hr : s.run ≠ .running) (n : Nat) (t : State) :
    runToEnd s n = some t ↔ ∃ k ≤ n, FirstStopsAt s k t := by
  rw [runToEnd_of_not_running hr]
  constructor
  · rintro ⟨⟩
    exact ⟨0, Nat.zero_le _, firstStopsAt_zero.mpr ⟨rfl, hr⟩⟩
  · rintro ⟨k, -, hstop⟩
    cases k with
    | zero => rw [(firstStopsAt_zero.mp hstop).1]
    | succ k =>
      obtain ⟨u, hu, -⟩ := step_effect s
      exact absurd ((firstStopsAt_succ hu).mp hstop).1 hr

/-- The budget covers the first stop, by induction on the budget: a RUNNING core stops where it stops after one step. -/
theorem runToEnd_iff (n : Nat) (s t : State) : runToEnd s n = some t ↔ ∃ k ≤ n, FirstStopsAt s k t := by
  induction n generalizing s with
  | zero =>
    by_cases hr : s.run = .running
    · rw [runToEnd, if_pos hr]
      refine ⟨nofun, ?_⟩
      rintro ⟨k, hk, hstop⟩
      obtain rfl := Nat.le_zero.mp hk
      exact absurd hr (firstStopsAt_zero.mp hstop).2
    · exact runToEnd_iff_of_not_running hr 0 t
  | succ n ih =>
    by_cases hr : s.run = .running
    · obtain ⟨u, hu, -⟩ := step_effect s
      rw [runToEnd_succ hr hu, ih u]
      constructor
      · rintro ⟨k, hk, hstop⟩
        exact ⟨k + 1, Nat.succ_le_succ hk, (firstStopsAt_succ hu).mpr ⟨hr, hstop⟩⟩
      · rintro ⟨k, hk, hstop⟩
        cases k with
        | zero => exact absurd hr (firstStopsAt_zero.mp hstop).2
        | succ k => exact ⟨k, Nat.le_of_succ_le_succ hk, ((firstStopsAt_succ hu).mp hstop).2⟩
    · exact runToEnd_iff_of_not_running hr (n + 1) t

/-- Settles O25: the statement writes out the first stop. -/
theorem runToEndIsSingleSteps : Obligations.RunToEndIsSingleSteps := fun s t n => runToEnd_iff n s t

end Sys2Proof.Machine
end

section
/-!
PROOFS. Memory as data and as an interface (spec/20_memory.md R50, R51, R56; log entry 2), the ALU's selections
(spec/41_arithmetic.md R130, R133) and the trace view (spec/40_execution_cycle.md R121).
-/

namespace Sys2Proof.Machine

/-! ### The canonical form determines the list -/

/-- In the canonical form the cells listed are those that read otherwise than an unlisted address. -/
theorem Memory.mem_iff_read {m : Memory} (hm : m.wf) (a : Nat) (v : Byte) :
    (a, v) ∈ m ↔ m.read a = v ∧ v ≠ unlistedByte := by
  induction m with
  | nil => simpa [Memory.read] using fun h : unlistedByte = v => h.symm
  | cons c m ih =>
    obtain ⟨b, w⟩ := c
    obtain ⟨hsorted, hcells⟩ := hm
    obtain ⟨hfirst, htail⟩ := List.pairwise_cons.mp hsorted
    obtain ⟨-, hw⟩ := hcells (b, w) List.mem_cons_self
    rw [List.mem_cons, ih ⟨htail, fun c hc => hcells c (List.mem_cons_of_mem _ hc)⟩]
    by_cases hab : a = b
    · subst hab
      have habsent : Memory.read m a = unlistedByte := Memory.read_of_absent m a fun c hc => (hfirst c hc).ne'
      have hread : Memory.read ((a, w) :: m) a = w := if_pos rfl
      rw [habsent, hread, Prod.mk.injEq]
      constructor
      · rintro (⟨-, rfl⟩ | ⟨rfl, hv⟩)
        · exact ⟨rfl, hw⟩
        · exact absurd rfl hv
      · rintro ⟨rfl, -⟩
        exact .inl ⟨rfl, rfl⟩
    · have hread : Memory.read ((b, w) :: m) a = Memory.read m a := if_neg hab
      simp [hread, hab]

/-- Settles O27: both lists are sorted and have the same cells, those that read otherwise than unlisted. -/
theorem canonicalMemoriesThatReadAlikeAreEqual : Obligations.CanonicalMemoriesThatReadAlikeAreEqual := by
  intro m m' hm hm' hread
  have antisymm : Std.Antisymm fun c d : Host.Cell => c.1 < d.1 := ⟨fun _ _ h h' => absurd h' h.not_gt⟩
  have irrefl : Std.Irrefl fun c d : Host.Cell => c.1 < d.1 := ⟨fun c => lt_irrefl c.1⟩
  refine hm.1.eq_of_mem_iff hm'.1 fun ⟨a, v⟩ => ?_
  rw [Memory.mem_iff_read hm, Memory.mem_iff_read hm', hread a]

/-! ### `MemRead` and `MemWrite` -/

theorem memWrite_of_le {s : State} {addr : BitVec 9} (h : addr.toNat ≤ 255) (v : Byte) :
    s.memWrite addr v = some { s with mem := s.mem.write addr.toNat v } := by
  have hnarrow : (addr.setWidth 8).toNat = addr.toNat := by
    rw [BitVec.toNat_setWidth, Nat.mod_eq_of_lt (by omega)]
  rw [State.memWrite, if_neg (by omega), State.writeByte, hnarrow]

/-- Settles O40: inside memory the laws of a read after a write, outside it the range check. -/
theorem memoryInterfaceContract : Obligations.MemoryInterfaceContract := by
  intro s addr v
  refine ⟨fun h => ⟨_, memWrite_of_le h v, ?_, fun other hne => ?_, rfl⟩, fun h => ⟨memRead_of_gt h, if_pos h⟩⟩
  · rw [memRead_of_le h, Memory.read_write_self]
  · have ha : other.toNat ≠ addr.toNat := fun e => hne (BitVec.eq_of_toNat_eq e)
    rw [State.memRead, State.memRead, Memory.read_write_ne _ _ ha]

/-! ### The ALU -/

/-- Settles O19: both results are narrowed to a byte, and any other selection is fault entry. -/
theorem aluOperations : Obligations.AluOperations :=
  ⟨fun _ _ => ⟨_, rfl, toNat_narrow _⟩, fun _ _ => ⟨_, rfl, toNat_narrow _⟩, fun op _ _ s =>
    ⟨s.raise .unsupportedOperation .mem 0 (some op), rfl, rfl, rfl⟩⟩

/-! ### The trace view -/

theorem peek_eq (s : State) (k : Nat) :
    s.peek (s.pc.toNat + k) = if s.pc.toNat + k ≤ 255 then some (s.byteAtPc k) else none := by
  by_cases h : s.pc.toNat + k ≤ 255
  · rw [if_pos h]; exact if_neg (Nat.not_lt_of_le h)
  · rw [if_neg h]; exact if_pos (Nat.lt_of_not_le h)

/-- Settles O58: each of the three bytes is a `peek`, and the registers are the register file as a list. -/
theorem traceHookIsShownTheFetch : Obligations.TraceHookIsShownTheFetch := by
  intro s
  constructor
  · intro hr
    cases h : s.run with
    | running => exact absurd h hr
    | halted | faulted => rw [traceView, h]
  · intro hr
    refine ⟨⟨s.pc, [s.peek s.pc.toNat, s.peek (s.pc.toNat + 1), s.peek (s.pc.toNat + 2)], s.regs.toList⟩,
      by rw [traceView, hr], rfl, fun k => ?_, fun r => ?_, Vector.length_toList⟩
    · rw [← peek_eq]
      fin_cases k <;> rfl
    · simp [State.x]

end Sys2Proof.Machine
end
